-- ==== Sys2Proof/Word.lean ====
section
/-! DEFINITION. Bytes, byte strings and the two integer types of NHDP-CORE (spec R9, R31, R33).

Cipher blocks, keys, nonces and buffers are byte strings and never integers (R33). The only integers the
machine holds are the 128-bit Sector Index and the 64-bit logical byte offset (R7, R8). -/

namespace Sys2Proof

/-- A byte, 0 to 255; bit 7 is the most significant (R9). -/
abbrev Byte := BitVec 8

/-- A finite byte string; index 0 is the first byte (R9 `Bytes`). -/
abbrev Bytes := List Byte

/-- A byte string of exactly `n` bytes (R9 `BytesN`), the length check carried with the data. -/
abbrev BytesN (n : Nat) := { b : Bytes // b.length = n }

/-- A 16-byte block or a 16-byte key (R7 `BLOCK`, `KEYLEN`). -/
abbrev Bytes16 := BytesN 16

/-- The Sector Index, "a 128-bit unsigned integer" (R7); sums wrap modulo 2^128 (R87). -/
abbrev SectorIndex := BitVec 128

/-- The logical byte offset of CTRI and CTRR, 64 bits unsigned (R8, R58); sums wrap modulo 2^64 (R124). -/
abbrev ByteOffset := BitVec 64

end Sys2Proof
end

