-- ==== Sys2Proof/Machine/Operands.lean ====
section
/-! DEFINITION. Byte-string operations over the operands of a command: byte order (spec R9, R32, R34, R35),
slices and blocks (R9, R36), bytewise exclusive-or (R9), and the length check that turns an operand of any
length into one of the length an operation demands (R161, R162). -/

namespace Sys2Proof.Machine

/-- `BE_n(x)`: the n-byte big-endian encoding, byte 0 the most significant (R9, R32). -/
def beBytes : Nat → Nat → Bytes
  | 0, _ => []
  | n + 1, x => BitVec.ofNat 8 (x >>> (8 * n)) :: beBytes n x

/-- `BE_n` gives n bytes. -/
@[simp] theorem beBytes_length (n x : Nat) : (beBytes n x).length = n := by
  induction n <;> simp_all [beBytes]

/-- `BE_n(x)` with its length (R9). -/
def beN (n x : Nat) : BytesN n := ⟨beBytes n x, beBytes_length n x⟩

/-- `BE_n^-1(b)`: the integer a big-endian byte string encodes (R9). -/
def beNat (b : Bytes) : Nat := b.foldl (fun acc d => acc * 256 + d.toNat) 0

/-- `LE_n(x)`: the n-byte little-endian encoding, byte 0 the least significant (R9, R34). -/
def leBytes : Nat → Nat → Bytes
  | 0, _ => []
  | n + 1, x => BitVec.ofNat 8 x :: leBytes n (x / 256)

/-- `LE_n^-1(b)` (R9, R34). -/
def leNat : Bytes → Nat
  | [] => 0
  | d :: b => d.toNat + 256 * leNat b

/-- `b[lo:hi)`, the half-open slice (R9). -/
def slice (b : Bytes) (lo hi : Nat) : Bytes := (b.drop lo).take (hi - lo)

/-- A slice of known length, inside its bounds (R9, `MemRead`). -/
def sliceN {n : Nat} (b : BytesN n) (lo len : Nat) (h : lo + len ≤ n) : BytesN len :=
  ⟨(b.val.drop lo).take len, by simp [b.property]; omega⟩

/-- `a xor b`, bytewise, of two byte strings of equal length (R9). -/
def xorBytes (a b : Bytes) : Bytes := List.zipWith (· ^^^ ·) a b

/-- `a xor b` of two blocks: whitening, chaining and keystream (R89). -/
def xorBlock (a b : Bytes16) : Bytes16 :=
  ⟨xorBytes a.val b.val, by simp [xorBytes, a.property, b.property]⟩

/-- The operand seen at the length an operation demands; nothing when it has another length, since a wrong size is
"never silently truncated or zero-padded" (R161, R162). -/
def asBytesN (n : Nat) (b : Bytes) : Option (BytesN n) :=
  if h : b.length = n then some ⟨b, h⟩ else none

/-- The first n whole 16-byte blocks of a buffer, in order: block j is `blk(b, j)` (R9, R36). -/
def takeBlocks : Nat → Bytes → List Bytes16
  | 0, _ => []
  | n + 1, b =>
    if h : 16 ≤ b.length then ⟨b.take 16, by simp [h]⟩ :: takeBlocks n (b.drop 16) else []

/-- All whole 16-byte blocks of a buffer (R36). -/
def toBlocks (b : Bytes) : List Bytes16 := takeBlocks (b.length / 16) b

/-- The buffer that a list of blocks tiles (R36). -/
def ofBlocks : List Bytes16 → Bytes
  | [] => []
  | x :: xs => x.val ++ ofBlocks xs

end Sys2Proof.Machine
end

