-- ==== Sys2Proof/Syntax.lean ====
section
/-! DEFINITION. The abstract commands of NHDP-CORE (spec R55, R59, R68): one constructor per row of the
opcode table, operands in packet order. A byte-string operand carries whatever length the packet gave it:
"All size checks belong to the command's semantics, not to the decoder" (R68). -/

namespace Sys2Proof

/-- The five commands. The decoder's verdict `illegal` (R61) is no constructor: see `decode`. -/
inductive Instr where
  /-- `01` XTSH: dual-key XTS decryption of the 3072-byte header (R100, R101). -/
  | xtsh (key data : Bytes)
  /-- `02` ECBD: decryption of one 16-byte block (R110, R111). -/
  | ecbd (key block : Bytes)
  /-- `03` CBCD: CBC decryption of a 112-byte region (R115, R116). -/
  | cbcd (key iv region : Bytes)
  /-- `04` CTRI: construct the counter-mode cursor (R121). -/
  | ctri (key nonce : Bytes) (offset : ByteOffset)
  /-- `05` CTRR: read through the cursor at a byte offset (R123). -/
  | ctrr (offset : ByteOffset) (data : Bytes)
  deriving DecidableEq, Repr

end Sys2Proof
end

