-- ==== Sys2Proof/WellFormed.lean ====
section
/-! DEFINITION. Which abstract commands a packet can carry. The one limit is the `LEN32` prefix of a
byte-string field: its length n satisfies 0 <= n <= 2^32 - 1 (spec R57). The sizes an operation demands
("required" in R59) are no part of well-formedness: another size is well-formed framing and an error of the
command. -/

namespace Sys2Proof

/-- The operand's length fits its `LEN32` field (R57). -/
def fieldFits (b : Bytes) : Bool := decide (b.length < 2 ^ 32)

/-- Every byte-string operand fits its field, so that the command has a packet (R57, R59). -/
def Instr.wellFormed : Instr → Bool
  | .xtsh key data => fieldFits key && fieldFits data
  | .ecbd key block => fieldFits key && fieldFits block
  | .cbcd key iv region => fieldFits key && fieldFits iv && fieldFits region
  | .ctri key nonce _ => fieldFits key && fieldFits nonce
  | .ctrr _ data => fieldFits data

end Sys2Proof
end

