-- ==== Sys2Proof/Decode.lean ====
section
/-! DEFINITION. The command packet: decoder, encoder (spec R55 to R59, R61, R64, R67, R68), and the host's
`decodeTableWord`. The decoder is total on any byte string and rejects by name (R61). -/

namespace Sys2Proof

open Sys2Proof.Machine

/-- Why a packet is `illegal`: the four cases of R61, which exclude each other. -/
inductive DecodeError where
  /-- R61 case 1: it is empty. -/
  | emptyPacket
  /-- R61 case 2: byte 0 is not one of `01` to `05` (R62: `00` and `06` to `FF` are reserved). -/
  | reservedOpcode
  /-- R61 case 3: it ends before a field of the layout is complete. -/
  | truncated
  /-- R61 case 4: bytes remain after the last field of the layout. -/
  | trailingBytes
  deriving DecidableEq, Repr

/-- Opcode bytes (R55, R67). -/
def Instr.opcode : Instr → Byte
  | .xtsh .. => 0x01
  | .ecbd .. => 0x02
  | .cbcd .. => 0x03
  | .ctri .. => 0x04
  | .ctrr .. => 0x05

/-- Read a `LEN32 ‖ bytes` field: the operand and what follows it; nothing when fewer than 4 bytes are left for the
length or fewer than n for the n announced (R57, R61 case 3, R68). -/
def takeField (b : Bytes) : Option (Bytes × Bytes) :=
  if b.length < 4 then none
  else if (b.drop 4).length < beNat (b.take 4) then none
  else some ((b.drop 4).take (beNat (b.take 4)), (b.drop 4).drop (beNat (b.take 4)))

/-- Read an `OFFSET` field, 8 bytes big-endian (R58, R68). -/
def takeOffset (b : Bytes) : Option (ByteOffset × Bytes) :=
  if b.length < 8 then none
  else some (BitVec.ofNat 64 (beNat (b.take 8)), b.drop 8)

/-- The fields must tile the packet exactly (R56, R61 case 4). -/
def finishPacket (i : Instr) : Bytes → Except DecodeError Instr
  | [] => .ok i
  | _ :: _ => .error .trailingBytes

/-- Format `KD`: key, data (XTSH, ECBD) (R59). -/
def decodeKD (mk : Bytes → Bytes → Instr) (b : Bytes) : Except DecodeError Instr :=
  match takeField b with
  | none => .error .truncated
  | some (key, b1) =>
    match takeField b1 with
    | none => .error .truncated
    | some (data, b2) => finishPacket (mk key data) b2

/-- Format `KVD`: key, iv, data (CBCD) (R59). -/
def decodeKVD (mk : Bytes → Bytes → Bytes → Instr) (b : Bytes) : Except DecodeError Instr :=
  match takeField b with
  | none => .error .truncated
  | some (key, b1) =>
    match takeField b1 with
    | none => .error .truncated
    | some (iv, b2) =>
      match takeField b2 with
      | none => .error .truncated
      | some (data, b3) => finishPacket (mk key iv data) b3

/-- Format `KNO`: key, nonce, offset (CTRI) (R59). -/
def decodeKNO (mk : Bytes → Bytes → ByteOffset → Instr) (b : Bytes) : Except DecodeError Instr :=
  match takeField b with
  | none => .error .truncated
  | some (key, b1) =>
    match takeField b1 with
    | none => .error .truncated
    | some (nonce, b2) =>
      match takeOffset b2 with
      | none => .error .truncated
      | some (offset, b3) => finishPacket (mk key nonce offset) b3

/-- Format `OD`: offset, data (CTRR) (R59). -/
def decodeOD (mk : ByteOffset → Bytes → Instr) (b : Bytes) : Except DecodeError Instr :=
  match takeOffset b with
  | none => .error .truncated
  | some (offset, b1) =>
    match takeField b1 with
    | none => .error .truncated
    | some (data, b2) => finishPacket (mk offset data) b2

/-- The decoder: match byte 0 under mask `FF`, then walk the layout of R59 from byte 1 (R61, R64, R67). -/
def decode : Bytes → Except DecodeError Instr
  | [] => .error .emptyPacket
  | opc :: body =>
    if opc = 0x01 then decodeKD .xtsh body
    else if opc = 0x02 then decodeKD .ecbd body
    else if opc = 0x03 then decodeKVD .cbcd body
    else if opc = 0x04 then decodeKNO .ctri body
    else if opc = 0x05 then decodeOD .ctrr body
    else .error .reservedOpcode

/-- A byte-string operand field, `LEN32 ‖ bytes` (R57). -/
def encodeField (b : Bytes) : Bytes := beBytes 4 b.length ++ b

/-- An `OFFSET` field, `BE_8(offset)` (R58). -/
def encodeOffset (o : ByteOffset) : Bytes := beBytes 8 o.toNat

/-- The packet of a command: opcode byte, then the operand fields in order, nothing between and nothing after
(R56, R59). -/
def encode : Instr → Bytes
  | .xtsh key data => 0x01 :: (encodeField key ++ encodeField data)
  | .ecbd key block => 0x02 :: (encodeField key ++ encodeField block)
  | .cbcd key iv region => 0x03 :: (encodeField key ++ encodeField iv ++ encodeField region)
  | .ctri key nonce offset => 0x04 :: (encodeField key ++ encodeField nonce ++ encodeOffset offset)
  | .ctrr offset data => 0x05 :: (encodeOffset offset ++ encodeField data)

/-- Does the decoder read a command from these bytes? -/
def isLegal (p : Bytes) : Bool :=
  match decode p with
  | .ok _ => true
  | .error _ => false

/-- The bytes `p` followed by the fewest zero bytes, up to `fuel`, that make them a legal packet; `p` itself where
none do. A packet carries no total length (R56), so a table row that fixes only the opcode leaves the operand fields
to be completed: with zeros they are empty fields and offset 0 (log entry 9). -/
def completeWithZeros : Nat → Bytes → Option Bytes
  | 0, p => if isLegal p then some p else none
  | fuel + 1, p => if isLegal p then some p else completeWithZeros fuel (p ++ [0x00])

/-- The packet of the instruction whose bits are `w`, numbered as the opcode table numbers them: byte 0 of the packet
is bits 7..0, byte 1 bits 15..8, and every bit above `nbits` is 0 (log entry 9). Sixteen zero bytes complete the
longest layout, CTRI's two empty fields and its offset. -/
def tablePacket (nbits w : Nat) : Bytes :=
  (completeWithZeros 16 (leBytes (nbits / 8) w)).getD (leBytes (nbits / 8) w)

/-- The instruction the decoder reads from an opcode-table word. -/
def decodeTableWord (nbits w : Nat) : Option Instr :=
  match decode (tablePacket nbits w) with
  | .ok i => some i
  | .error _ => none

end Sys2Proof
end

