-- ==== Sys2Proof/Machine/State.lean ====
section
/-! DEFINITION. The state of NHDP-CORE (spec R10, R11, R18 to R20) and the command interface around it, the reasons a
step can stop, and the state after reset. -/

namespace Sys2Proof.Machine

/-- The status of a response (R160). "Every command ends with exactly one status." -/
inductive Status where
  /-- `00`: the command completed. -/
  | ok
  /-- `01`: the key operand is not of the required length (R161). -/
  | invalidKeyLength
  /-- `02`: a non-key operand is not of the required fixed length (R162). -/
  | invalidBufferLength
  /-- `03`: the decrypted bytes [512,516) differ from `MAGIC` (R163). -/
  | formatMismatch
  /-- `04`: the data length of a CTRR is no multiple of 16, under policy `reject` (R169). -/
  | unsupportedOffsetAlignment
  /-- `05`: no cursor has been constructed since reset (R164). -/
  | noCursor
  /-- `06`: the packet is not a well-formed command (R165). -/
  | illegalCommand
  deriving DecidableEq, Repr

/-- A response: a status and a payload (R20, R60). -/
structure Response where
  status : Status
  payload : Bytes
  deriving DecidableEq, Repr

/-- What the world outside does to the core (R195): present a command packet, or reset it (R19, R190). -/
inductive HostInput where
  /-- One packet, delivered by the transport as a unit (R56). -/
  | command (packet : Bytes)
  /-- The reset event, which "is an event from outside the command stream" (R19). -/
  | reset
  deriving DecidableEq, Repr

/-- The cursor context `CUR`, "exactly one piece of persistent state" (R10). While `VALID = 0` the other two fields
"hold no value. A model represents this as an absent value (an option type), not as zeros" (R18, R20; log entry 3). -/
structure Cursor where
  /-- `CUR.VALID`, 1 bit (R10). -/
  valid : Bool
  /-- `CUR.KEY`, 16 bytes (R10). -/
  key : Option Bytes16
  /-- `CUR.CTR`, 16 bytes: `NONCE` at 0 to 7, `CTR_HI` at 8, `CTR_LO` at 9 to 15 (R10, R11). -/
  ctr : Option Bytes16
  deriving DecidableEq, Repr

/-- The machine: the cursor context, and the two sides of the command interface of R19 as plain data (log entry 4). -/
structure State where
  /-- The cursor context `CUR` (R10). -/
  cur : Cursor
  /-- What the host is going to do, in order: the input of the step function of R20. The model's own field. -/
  inputs : List HostInput
  /-- The responses produced since reset, oldest first: "the observation is the list of responses" (R198). The model's
  own field. -/
  responses : List Response
  deriving DecidableEq, Repr

/-- Why a step can stop with a fault. No fault of the hardware stands behind this: every error of the spec is a status
(R160) and the machine goes on (R167). -/
inductive Fault where
  /-- Raised by CTRR alone, in a state with `CUR.VALID = 1` and no key or no counter. R20 rules such a state out ("present
  exactly when `valid` is true"), and no step from a state that meets R20 leads to one, so the spec gives it no behaviour.
  SAFE: stopping there lets no statement about the hardware be proved. -/
  | cursorIncoherent
  deriving DecidableEq, Repr

/-- Why a step can be refused. -/
inductive Refusal where
  /-- Raised by an arm of exec whose instruction has no meaning yet; no arm of this model is one. SAFE. -/
  | notModelled (mnemonic : String)
  deriving DecidableEq, Repr

/-- The machine right after reset (R19, R190): `CUR.VALID` is 0, `CUR.KEY` and `CUR.CTR` hold no value, the command
interface is idle: "no command in execution, no response pending". -/
def State.reset : State where
  cur := { valid := false, key := none, ctr := none }
  inputs := []
  responses := []

end Sys2Proof.Machine
end

