-- ==== Sys2Proof/Machine/Ops.lean ====
section
/-! DEFINITION. The named operations over the state: answering a command, raising an error, writing the cursor, and
taking the next input of the host. -/

namespace Sys2Proof.Machine

/-- Produce one response (R20, R47, R60). -/
def respond (st : Status) (payload : Bytes) (s : State) : State :=
  { s with responses := s.responses ++ [{ status := st, payload := payload }] }

/-- `respond OK(payload)`: the command ends with status `OK` (R9). -/
def complete (payload : Bytes) (s : State) : Host.Outcome State Fault Refusal :=
  .next (respond .ok payload s)

/-- `raise <Error>`, the core's whole exception entry (R166): the command ends, the response is the error's status with
an empty payload (R171), `CUR` is as it was bit for bit, nothing is saved, no mode changes, control goes nowhere. There is
no return beside it: "no acknowledge, clear or re-enable step exists" (R167). -/
def raise (e : Status) (s : State) : Host.Outcome State Fault Refusal :=
  .next (respond e [] s)

/-- CTRI's write of all of `CUR` (R121): nothing of an earlier cursor survives (R122). -/
def installCursor (key ctr : Bytes16) (s : State) : State :=
  { s with cur := { valid := true, key := some key, ctr := some ctr } }

/-- CTRR's write of the counter block; `CUR.VALID` and `CUR.KEY` are never changed by it (R132). -/
def writeCounter (ctr : Bytes16) (s : State) : State :=
  { s with cur := { s.cur with ctr := some ctr } }

/-- The reset event (R19, R190): `CUR` as after reset, no response pending. What the host does after the reset is still
to come, so `rest` stays (log entries 4 and 5). -/
def takeReset (rest : List HostInput) : State :=
  { State.reset with inputs := rest }

/-- Execute one packet (R14, R20): the decoded command, or the answer `IllegalCommand` to an illegal packet, with the
state unchanged (R61, R165). `ex` is the execution of a decoded command. -/
def runPacket (ex : Instr → State → Host.Outcome State Fault Refusal) (p : Bytes) (s : State) :
    Host.Outcome State Fault Refusal :=
  match decode p with
  | .ok i => ex i s
  | .error _ => raise .illegalCommand s

/-- One step over an execution `ex`: with no input pending nothing changes (R198); a reset is taken between commands
(R191); a packet is executed whole, in the order presented (R14, R43). -/
def stepVia (ex : Instr → State → Host.Outcome State Fault Refusal) (s : State) :
    Host.Outcome State Fault Refusal :=
  match s.inputs with
  | [] => .next s
  | .reset :: rest => .next (takeReset rest)
  | .command p :: rest => runPacket ex p { s with inputs := rest }

/-- The host presents the packet `p`, to be executed before anything else it presents. -/
def presentFirst (p : Bytes) (s : State) : State :=
  { s with inputs := .command p :: s.inputs }

end Sys2Proof.Machine
end

