-- ==== Sys2Proof/Config.lean ====
section
/-! DEFINITION. The implementation parameters of NHDP-CORE (spec R6): the block cipher `BC`, the format magic
`MAGIC` and the tail policy `CTR_TAIL_POLICY`. They are arguments of the step function and not state (R16, R190).

`BC` and `MAGIC` are OPEN parameters: the machine of this package takes them as opaque constants, so that nothing
but the two inverse laws of R80 can be proved of the cipher and nothing at all of the magic bytes. The policy is
`reject`, "the value this spec chooses" (R6, R128). Every meaning is written over a `Params` record, so that the
machine of any other instance is at hand as well (`Sys2Proof.Machine.execWith`). -/

namespace Sys2Proof

/-- `BC`: a pair of total functions on a 16-byte key and a 16-byte block (R6, R80). Each is a Lean function, so it
has no state and its result depends on the key and the block alone (R81). -/
structure BlockCipher where
  /-- Forward direction, "encrypt". -/
  E : Bytes16 → Bytes16 → Bytes16
  /-- Inverse direction, "decrypt". -/
  D : Bytes16 → Bytes16 → Bytes16

/-- The contract of `BC`: `D(k, E(k, x)) = x` and `E(k, D(k, y)) = y` for every key and block (R6, R80). -/
def BlockCipher.Lawful (c : BlockCipher) : Prop :=
  (∀ k x, c.D k (c.E k x) = x) ∧ (∀ k y, c.E k (c.D k y) = y)

/-- `CTR_TAIL_POLICY` (R6, R128): what CTRR does with data whose length is no multiple of 16. -/
inductive TailPolicy where
  /-- Raise `UnsupportedOffsetAlignment` and change nothing. -/
  | reject
  /-- Process the whole chunks and return the tail unchanged (the source's reference behaviour). -/
  | drop
  deriving DecidableEq, Repr

/-- The configuration record of R6. "Nothing else differs between instances of NHDP-CORE." -/
structure Params where
  cipher : BlockCipher
  magic : BytesN 4
  tailPolicy : TailPolicy

/-- FREE VALUE (R6, R80; log entry 1). For each key, `E(k, ·)` "is a permutation of the 2^128 blocks": an arbitrary
one. Being a permutation is exactly the contract of R80; nothing else can be proved of it. -/
opaque Config.permutation : Bytes16 → Equiv.Perm Bytes16

/-- FREE VALUE (R6; log entry 2). The four bytes of the format magic, whose values no source gives. -/
opaque Config.magicByte : Fin 4 → Byte

/-- The parameter `BC` of this machine: the arbitrary permutation and its inverse (R80). -/
def Config.cipher : BlockCipher where
  E k x := Config.permutation k x
  D k y := (Config.permutation k).symm y

/-- The parameter `MAGIC` of this machine (R6). -/
def Config.magic : BytesN 4 :=
  ⟨[Config.magicByte 0, Config.magicByte 1, Config.magicByte 2, Config.magicByte 3], rfl⟩

/-- The parameters of this machine: open cipher, open magic, policy `reject` (R6). -/
def Config.params : Params where
  cipher := Config.cipher
  magic := Config.magic
  tailPolicy := .reject

end Sys2Proof
end

