-- ==== Sys2Proof/Machine/Primitives.lean ====
section
/-! DEFINITION. The internal primitives of NHDP-CORE (spec 40_primitives.md and the loops of 43, 44): pure functions over
an abstract block cipher. None is a command, none reads or writes the state. -/

namespace Sys2Proof.Machine

/-- `TWEAK(sector) = BE_16(sector)`, big-endian (R82). -/
def tweak (sector : SectorIndex) : Bytes16 := beN 16 sector.toNat

/-- The loop of `MULALPHA`: each byte shifted left by one, the carry running from byte 0 upwards (R84). The result and the
carry out of the last byte. -/
def shiftBytes : Bool → Bytes → Bytes × Bool
  | carry, [] => ([], carry)
  | carry, d :: b =>
    let r := shiftBytes d.msb b
    (((d <<< 1) + (if carry then 0x01 else 0x00)) :: r.1, r.2)

/-- The loop keeps the length. -/
@[simp] theorem shiftBytes_length (c : Bool) (b : Bytes) : (shiftBytes c b).1.length = b.length := by
  induction b generalizing c with
  | nil => rfl
  | cons d b ih => simp [shiftBytes, ih]

/-- `xor 0x87` into byte 0 when bit 7 of the last byte was set (R84). -/
def reduceAlpha : Bytes × Bool → Bytes
  | (d :: b, true) => (d ^^^ 0x87) :: b
  | (b, _) => b

/-- The reduction keeps the length. -/
@[simp] theorem reduceAlpha_length (r : Bytes × Bool) : (reduceAlpha r).length = r.1.length := by
  obtain ⟨b, c⟩ := r
  cases b <;> cases c <;> rfl

/-- `MULALPHA`: multiplication by x in GF(2^128), byte 0 least significant (R84, R34). -/
def mulAlpha (t : Bytes16) : Bytes16 :=
  ⟨reduceAlpha (shiftBytes false t.val), by simp [t.property]⟩

/-- The block loop of `XTS_SECTOR_DEC` (R86): whiten, decrypt, whiten, advance the tweak. -/
def xtsBlocks (c : BlockCipher) (k1 : Bytes16) : Bytes16 → List Bytes16 → List Bytes16
  | _, [] => []
  | t, x :: xs => xorBlock (c.D k1 (xorBlock x t)) t :: xtsBlocks c k1 (mulAlpha t) xs

/-- `XTS_SECTOR_DEC`: the tweak of the sector encrypted under K2, then the blocks (R86). -/
def xtsSectorDec (c : BlockCipher) (k1 k2 : Bytes16) (sector : SectorIndex) (blocks : List Bytes16) : List Bytes16 :=
  xtsBlocks c k1 (c.E k2 (tweak sector)) blocks

/-- The sector loop of `XTS_AREA_DEC` over n sectors of 32 blocks; the sector index advances by 1, modulo 2^128 (R87). -/
def xtsSectors (c : BlockCipher) (k1 k2 : Bytes16) : Nat → SectorIndex → List Bytes16 → List Bytes16
  | 0, _, _ => []
  | n + 1, sector, blocks =>
    xtsSectorDec c k1 k2 sector (blocks.take 32) ++ xtsSectors c k1 k2 n (sector + 1) (blocks.drop 32)

/-- `XTS_AREA_DEC`, the source's "area call", on a buffer of `512 * n` bytes (R87). -/
def xtsAreaDec (c : BlockCipher) (k1 k2 : Bytes16) (start : SectorIndex) (data : Bytes) : Bytes :=
  ofBlocks (xtsSectors c k1 k2 (data.length / 512) start (toBlocks data))

/-- The block loop of CBCD: decrypt and combine with the previous CIPHERTEXT block (R116). -/
def cbcBlocks (c : BlockCipher) (key : Bytes16) : Bytes16 → List Bytes16 → List Bytes16
  | _, [] => []
  | prev, x :: xs => xorBlock (c.D key x) prev :: cbcBlocks c key x xs

/-- `SUFFIX56(o) = BE_7((o >> 4) mod 2^56)` (R88). -/
def suffix56 (o : ByteOffset) : BytesN 7 := beN 7 ((o.toNat >>> 4) % 2 ^ 56)

/-- The counter block CTRI builds: the nonce as supplied, `CTR_HI` = `00`, the suffix of the initial offset (R11, R121). -/
def initialCounter (nonce : BytesN 8) (offset : ByteOffset) : Bytes16 :=
  ⟨nonce.val ++ [0x00] ++ (suffix56 offset).val, by simp [nonce.property, (suffix56 offset).property]⟩

/-- `CUR.CTR[9:16) <- SUFFIX56(o)`; bytes 0 to 8 are not written (R125). -/
def setCounterLow (ctr : Bytes16) (o : ByteOffset) : Bytes16 :=
  ⟨ctr.val.take 9 ++ (suffix56 o).val, by simp [ctr.property, (suffix56 o).property]⟩

/-- The offset of chunk i, `(offset + 16*i) mod 2^64` (R124). -/
def chunkOffset (offset : ByteOffset) (i : Nat) : ByteOffset := offset + BitVec.ofNat 64 (16 * i)

/-- The chunk loop of CTRR from chunk `i` on: write the counter's low bytes, one keystream block, exclusive-or (R123 to
R126). The counter block as the last chunk leaves it, and the chunks' plaintext. -/
def ctrChunks (c : BlockCipher) (key : Bytes16) (offset : ByteOffset) :
    Nat → Bytes16 → List Bytes16 → Bytes16 × List Bytes16
  | _, ctr, [] => (ctr, [])
  | i, ctr, x :: xs =>
    let ctr1 := setCounterLow ctr (chunkOffset offset i)
    let r := ctrChunks c key offset (i + 1) ctr1 xs
    (r.1, xorBlock x (c.E key ctr1) :: r.2)

end Sys2Proof.Machine
end

