-- ==== Sys2Proof/Machine/Cbc.lean ====
section
/-! DEFINITION. CBCD, the CBC Region Decryptor (spec 43_cbc.md). -/

namespace Sys2Proof.Machine

/-- CBCD over any parameters (R116, R117): key, IV and region checked in packet order, then the seven blocks chained from
the IV. A wrong IV length is `InvalidBufferLength` (R162). -/
def execCbcdWith (p : Params) (key iv region : Bytes) (s : State) : Host.Outcome State Fault Refusal :=
  match asBytesN 16 key with
  | none => raise .invalidKeyLength s
  | some k =>
    match asBytesN 16 iv with
    | none => raise .invalidBufferLength s
    | some v =>
      if region.length ≠ 112 then raise .invalidBufferLength s
      else complete (ofBlocks (cbcBlocks p.cipher k v (toBlocks region))) s

/-- CBCD on this machine. -/
def execCbcd (key iv region : Bytes) (s : State) : Host.Outcome State Fault Refusal :=
  execCbcdWith Config.params key iv region s

end Sys2Proof.Machine
end

