-- ==== Sys2Proof/Machine/Ctr.lean ====
section
/-! DEFINITION. CTRI and CTRR, the CTR Cursor (spec 44_ctr_cursor.md). -/

namespace Sys2Proof.Machine

/-- CTRI (R121, R122): the two size checks, then all of `CUR` is written. It uses none of the parameters. -/
def execCtri (key nonce : Bytes) (offset : ByteOffset) (s : State) : Host.Outcome State Fault Refusal :=
  match asBytesN 16 key with
  | none => raise .invalidKeyLength s
  | some k =>
    match asBytesN 8 nonce with
    | none => raise .invalidBufferLength s
    | some n => complete [] (installCursor k (initialCounter n offset) s)

/-- The read proper, with a cursor and a length the policy accepts (R123): the whole chunks through the cipher, the tail
bytes unchanged (only under `drop` is there a tail). -/
def readCursor (c : BlockCipher) (key ctr : Bytes16) (offset : ByteOffset) (data : Bytes) (s : State) :
    Host.Outcome State Fault Refusal :=
  let r := ctrChunks c key offset 0 ctr (toBlocks data)
  complete (ofBlocks r.2 ++ data.drop (16 * (data.length / 16))) (writeCounter r.1 s)

/-- CTRR over any parameters (R123, R128, R133): `NoCursor` first, then the length under policy `reject`, then the read. -/
def execCtrrWith (p : Params) (offset : ByteOffset) (data : Bytes) (s : State) : Host.Outcome State Fault Refusal :=
  if s.cur.valid = false then raise .noCursor s
  else if data.length % 16 ≠ 0 ∧ p.tailPolicy = .reject then raise .unsupportedOffsetAlignment s
  else
    match s.cur.key, s.cur.ctr with
    | some key, some ctr => readCursor p.cipher key ctr offset data s
    | _, _ => .fault .cursorIncoherent

/-- CTRR on this machine. -/
def execCtrr (offset : ByteOffset) (data : Bytes) (s : State) : Host.Outcome State Fault Refusal :=
  execCtrrWith Config.params offset data s

end Sys2Proof.Machine
end

