-- ==== Sys2Proof/Machine/Ecb.lean ====
section
/-! DEFINITION. ECBD, the ECB Single-Block Decryptor (spec 42_ecb.md). -/

namespace Sys2Proof.Machine

/-- ECBD over any parameters (R111, R112): the two size checks, then `D(key, block)` and nothing else. -/
def execEcbdWith (p : Params) (key block : Bytes) (s : State) : Host.Outcome State Fault Refusal :=
  match asBytesN 16 key with
  | none => raise .invalidKeyLength s
  | some k =>
    match asBytesN 16 block with
    | none => raise .invalidBufferLength s
    | some x => complete (p.cipher.D k x).val s

/-- ECBD on this machine. -/
def execEcbd (key block : Bytes) (s : State) : Host.Outcome State Fault Refusal :=
  execEcbdWith Config.params key block s

end Sys2Proof.Machine
end

