-- ==== Sys2Proof/Machine/Xts.lean ====
section
/-! DEFINITION. XTSH, the XTS Header Decryptor (spec 41_xts_header.md). -/

namespace Sys2Proof.Machine

/-- The data sub-key K1 = key[0:16) (R83). -/
def xtsDataKey (key : BytesN 32) : Bytes16 := sliceN key 0 16 (by decide)

/-- The tweak sub-key K2 = key[16:32) (R83). -/
def xtsTweakKey (key : BytesN 32) : Bytes16 := sliceN key 16 16 (by decide)

/-- The first area call: bytes [0,1024), sectors 0 and 1 (R101 step 1). -/
def xtsFirstRegion (c : BlockCipher) (key : BytesN 32) (data : Bytes) : Bytes :=
  xtsAreaDec c (xtsDataKey key) (xtsTweakKey key) 0 (slice data 0 1024)

/-- The second area call: bytes [1024,3072), sectors 2 to 5 (R101 step 3). -/
def xtsSecondRegion (c : BlockCipher) (key : BytesN 32) (data : Bytes) : Bytes :=
  xtsAreaDec c (xtsDataKey key) (xtsTweakKey key) 2 (slice data 1024 3072)

/-- XTSH over any parameters (R101 to R103): size checks, first region, magic check before any of the second region
(R102), second region. -/
def execXtshWith (p : Params) (key data : Bytes) (s : State) : Host.Outcome State Fault Refusal :=
  match asBytesN 32 key with
  | none => raise .invalidKeyLength s
  | some k =>
    if data.length ≠ 3072 then raise .invalidBufferLength s
    else if slice (xtsFirstRegion p.cipher k data) 512 516 ≠ p.magic.val then raise .formatMismatch s
    else complete (xtsFirstRegion p.cipher k data ++ xtsSecondRegion p.cipher k data) s

/-- XTSH on this machine. -/
def execXtsh (key data : Bytes) (s : State) : Host.Outcome State Fault Refusal :=
  execXtshWith Config.params key data s

end Sys2Proof.Machine
end

