-- ==== Sys2Proof/Machine/Dispatch.lean ====
section
/-! DEFINITION. The execution of a decoded command: one arm per row of the opcode table (spec R55, R67). -/

namespace Sys2Proof.Machine

def exec (i : Instr) (s : State) : Host.Outcome State Fault Refusal :=
  match i with
  | .xtsh key data => Sys2Proof.Machine.execXtsh key data s
  | .ecbd key block => Sys2Proof.Machine.execEcbd key block s
  | .cbcd key iv region => Sys2Proof.Machine.execCbcd key iv region s
  | .ctri key nonce offset => Sys2Proof.Machine.execCtri key nonce offset s
  | .ctrr offset data => Sys2Proof.Machine.execCtrr offset data s

end Sys2Proof.Machine
end

