-- ==== Sys2Proof/Machine/Step.lean ====
section
/-! DEFINITION. One step of the machine (spec R14, R20, R198), and the host's `withFetchWord`. -/

namespace Sys2Proof.Machine

/-- One step: the next thing the host does, executed whole (R14, R20). Every state with no input pending stays as it is
(R198). -/
def step (s : State) : Host.Outcome State Fault Refusal :=
  Sys2Proof.Machine.stepVia Sys2Proof.Machine.exec s

/-- The state in which the host presents, before anything else, the packet of the opcode-table word `w`. The core fetches
nothing and stores no program (R14): a command runs because the host presents it (log entry 6). -/
def State.withFetchWord (s : State) (nbits w : Nat) : State :=
  Sys2Proof.Machine.presentFirst (Sys2Proof.tablePacket nbits w) s

end Sys2Proof.Machine
end

