-- ==== Sys2Proof/Machine/Flags.lean ====
section
/-! DEFINITION. Outcome indicators. NHDP-CORE has no persistent flags: "The outcome of a command is its response's status
byte and nothing else" (spec R15). Here are the numeric codes of the statuses (R160) and the response as the bytes the
host sees (R60). -/

namespace Sys2Proof.Machine

/-- The status byte (R160). Codes `07` to `FF` are never produced. -/
def Status.code : Status → Byte
  | .ok => 0x00
  | .invalidKeyLength => 0x01
  | .invalidBufferLength => 0x02
  | .formatMismatch => 0x03
  | .unsupportedOffsetAlignment => 0x04
  | .noCursor => 0x05
  | .illegalCommand => 0x06

/-- The response as a byte string, `STATUS ‖ LEN32(p) ‖ PAYLOAD[p]` (R60). -/
def Response.encode (r : Response) : Bytes :=
  r.status.code :: (beBytes 4 r.payload.length ++ r.payload)

/-- What has left the core on the response channel since reset, one byte string per command, oldest first (R60, R198). -/
def State.output (s : State) : List Bytes := s.responses.map Response.encode

end Sys2Proof.Machine
end

