-- ==== Sys2Proof/Machine/ReferenceEncryptor.lean ====
section
/-! DEFINITION. The reference encryptors of spec/95_test_vectors.md part 2: "test aid, not part of the hardware". No command
performs them; they are here so that the round trips of the source can be stated. -/

namespace Sys2Proof.Machine

/-- The block loop of `XTS_SECTOR_ENC`: as `xtsBlocks` with `E` for `D` on the data. -/
def xtsBlocksEnc (c : BlockCipher) (k1 : Bytes16) : Bytes16 → List Bytes16 → List Bytes16
  | _, [] => []
  | t, x :: xs => xorBlock (c.E k1 (xorBlock x t)) t :: xtsBlocksEnc c k1 (mulAlpha t) xs

/-- The sector loop of `XTS_AREA_ENC`; the tweak is encrypted with `E`, as in decryption. -/
def xtsSectorsEnc (c : BlockCipher) (k1 k2 : Bytes16) : Nat → SectorIndex → List Bytes16 → List Bytes16
  | 0, _, _ => []
  | n + 1, sector, blocks =>
    xtsBlocksEnc c k1 (c.E k2 (tweak sector)) (blocks.take 32) ++
      xtsSectorsEnc c k1 k2 n (sector + 1) (blocks.drop 32)

/-- `XTS_AREA_ENC`. -/
def xtsAreaEnc (c : BlockCipher) (k1 k2 : Bytes16) (start : SectorIndex) (data : Bytes) : Bytes :=
  ofBlocks (xtsSectorsEnc c k1 k2 (data.length / 512) start (toBlocks data))

/-- `XTS_HDR_ENC`: sectors 0 and 1 for bytes [0,1024), sectors 2 to 5 for bytes [1024,3072). -/
def xtsHeaderEnc (c : BlockCipher) (k1 k2 : Bytes16) (data : Bytes) : Bytes :=
  xtsAreaEnc c k1 k2 0 (slice data 0 1024) ++ xtsAreaEnc c k1 k2 2 (slice data 1024 3072)

/-- The block loop of `CBC_ENC`: the next block is chained to the ciphertext just made. -/
def cbcBlocksEnc (c : BlockCipher) (key : Bytes16) : Bytes16 → List Bytes16 → List Bytes16
  | _, [] => []
  | prev, x :: xs =>
    let y := c.E key (xorBlock x prev)
    y :: cbcBlocksEnc c key y xs

/-- `CBC_ENC`. -/
def cbcEnc (c : BlockCipher) (key iv : Bytes16) (data : Bytes) : Bytes :=
  ofBlocks (cbcBlocksEnc c key iv (toBlocks data))

end Sys2Proof.Machine
end

