-- ==== Sys2Proof/Machine/Aes128.lean ====
section
/-! DEFINITION. AES-128, the recommended value of the parameter `BC` (spec R140 to R148). The machine of this package does
not use it: its cipher is the open parameter of Config.lean. It is here so that the machine can be instantiated and run
(Instances.lean), and so that its contract can be stated. Every rule of this file is marked by the spec as general
knowledge and not its source's. -/

namespace Sys2Proof.Machine

/-- A state of 16 bytes given byte by byte (R141): `s[i]` is in row `i mod 4` and column `i div 4`. -/
def aesState (f : Nat → Byte) : Bytes16 := ⟨(List.range 16).map f, by simp⟩

/-- Byte `s[i]` of the state (R141). -/
def aesByte (s : Bytes16) (i : Nat) : Byte := s.val.getD i 0

/-- `xtime(a)`: multiplication by x in GF(2^8) modulo `11B` (R142). -/
def aesXtime (a : Byte) : Byte := if a.msb then (a <<< 1) ^^^ 0x1b else a <<< 1

/-- `a • b`: "the `xor` of `xtime^n(a)` over the set bits n of b" (R142). -/
def aesMul (a b : Byte) : Byte :=
  (List.range 8).foldl (fun acc n => if b.getLsbD n then acc ^^^ aesXtime^[n] a else acc) 0

/-- Look a byte up in a 16 by 16 table whose rows are written as the spec prints them, column 0 leftmost: row = high
nibble, column = low nibble (R143). -/
def aesLookup (rows : List Nat) (a : Byte) : Byte :=
  BitVec.ofNat 8 (rows.getD (a.toNat / 16) 0 >>> (8 * (15 - a.toNat % 16)))

/-- The rows of `SBOX` (R143). -/
def aesSboxRows : List Nat :=
  [0x637c777bf26b6fc53001672bfed7ab76, 0xca82c97dfa5947f0add4a2af9ca472c0,
   0xb7fd9326363ff7cc34a5e5f171d83115, 0x04c723c31896059a071280e2eb27b275,
   0x09832c1a1b6e5aa0523bd6b329e32f84, 0x53d100ed20fcb15b6acbbe394a4c58cf,
   0xd0efaafb434d338545f9027f503c9fa8, 0x51a3408f929d38f5bcb6da2110fff3d2,
   0xcd0c13ec5f974417c4a77e3d645d1973, 0x60814fdc222a908846eeb814de5e0bdb,
   0xe0323a0a4906245cc2d3ac629195e479, 0xe7c8376d8dd54ea96c56f4ea657aae08,
   0xba78252e1ca6b4c6e8dd741f4bbd8b8a, 0x703eb5664803f60e613557b986c11d9e,
   0xe1f8981169d98e949b1e87e9ce5528df, 0x8ca1890dbfe6426841992d0fb054bb16]

/-- The rows of `INVSBOX` (R144). -/
def aesInvSboxRows : List Nat :=
  [0x52096ad53036a538bf40a39e81f3d7fb, 0x7ce339829b2fff87348e4344c4dee9cb,
   0x547b9432a6c2233dee4c950b42fac34e, 0x082ea16628d924b2765ba2496d8bd125,
   0x72f8f66486689816d4a45ccc5d65b692, 0x6c704850fdedb9da5e154657a78d9d84,
   0x90d8ab008cbcd30af7e45805b8b34506, 0xd02c1e8fca3f0f02c1afbd0301138a6b,
   0x3a9111414f67dcea97f2cfcef0b4e673, 0x96ac7422e7ad3585e2f937e81c75df6e,
   0x47f11a711d29c5896fb7620eaa18be1b, 0xfc563e4bc6d279209adbc0fe78cd5af4,
   0x1fdda8338807c731b11210592780ec5f, 0x60517fa919b54a0d2de57a9f93c99cef,
   0xa0e03b4dae2af5b0c8ebbb3c83539961, 0x172b047eba77d626e169146355210c7d]

/-- `SBOX[a]` (R143). -/
def aesSbox (a : Byte) : Byte := aesLookup aesSboxRows a

/-- `INVSBOX[a]` (R144). -/
def aesInvSbox (a : Byte) : Byte := aesLookup aesInvSboxRows a

/-- `RCON[1..10]` (R145). -/
def aesRcon : List Byte := [0x01, 0x02, 0x04, 0x08, 0x10, 0x20, 0x40, 0x80, 0x1b, 0x36]

/-- The word `w[i]` from the words before it (R145): `RotWord`, `SubWord` and `RCON[i div 4]` when i is a multiple of 4. -/
def aesNextWord (i : Nat) (w : List Bytes) : Bytes :=
  let t := w.getD (i - 1) []
  let u := if i % 4 = 0 then
      xorBytes ((t.drop 1 ++ t.take 1).map aesSbox) [aesRcon.getD (i / 4 - 1) 0, 0, 0, 0]
    else t
  xorBytes (w.getD (i - 4) []) u

/-- n further words (R145). -/
def aesExtend : Nat → List Bytes → List Bytes
  | 0, w => w
  | n + 1, w => aesExtend n (w ++ [aesNextWord w.length w])

/-- The 44 words of the key expansion (R145). -/
def aesWords (k : Bytes16) : List Bytes :=
  aesExtend 40 [slice k.val 0 4, slice k.val 4 8, slice k.val 8 12, slice k.val 12 16]

/-- Round key r: `w[4r] ‖ w[4r+1] ‖ w[4r+2] ‖ w[4r+3]` (R145). -/
def aesRoundKey (k : Bytes16) (r : Nat) : Bytes16 :=
  aesState fun j => ((aesWords k).getD (4 * r + j / 4) []).getD (j % 4) 0

/-- `SubBytes` (R146). -/
def aesSubBytes (s : Bytes16) : Bytes16 := aesState fun i => aesSbox (aesByte s i)

/-- `InvSubBytes` (R146). -/
def aesInvSubBytes (s : Bytes16) : Bytes16 := aesState fun i => aesInvSbox (aesByte s i)

/-- `ShiftRows`: `out[r + 4c] = s[r + 4((c + r) mod 4)]` (R146). -/
def aesShiftRows (s : Bytes16) : Bytes16 :=
  aesState fun i => aesByte s (i % 4 + 4 * ((i / 4 + i % 4) % 4))

/-- `InvShiftRows` rotates row r right by r: `out[r + 4((c + r) mod 4)] = s[r + 4c]` (R146), read at the output's index. -/
def aesInvShiftRows (s : Bytes16) : Bytes16 :=
  aesState fun i => aesByte s (i % 4 + 4 * ((i / 4 + 4 - i % 4) % 4))

/-- One column of `MixColumns` (R146). -/
def aesMixColumn (a0 a1 a2 a3 : Byte) : Bytes :=
  [aesMul a0 0x02 ^^^ aesMul a1 0x03 ^^^ a2 ^^^ a3,
   a0 ^^^ aesMul a1 0x02 ^^^ aesMul a2 0x03 ^^^ a3,
   a0 ^^^ a1 ^^^ aesMul a2 0x02 ^^^ aesMul a3 0x03,
   aesMul a0 0x03 ^^^ a1 ^^^ a2 ^^^ aesMul a3 0x02]

/-- One column of `InvMixColumns` (R146). -/
def aesInvMixColumn (a0 a1 a2 a3 : Byte) : Bytes :=
  [aesMul a0 0x0e ^^^ aesMul a1 0x0b ^^^ aesMul a2 0x0d ^^^ aesMul a3 0x09,
   aesMul a0 0x09 ^^^ aesMul a1 0x0e ^^^ aesMul a2 0x0b ^^^ aesMul a3 0x0d,
   aesMul a0 0x0d ^^^ aesMul a1 0x09 ^^^ aesMul a2 0x0e ^^^ aesMul a3 0x0b,
   aesMul a0 0x0b ^^^ aesMul a1 0x0d ^^^ aesMul a2 0x09 ^^^ aesMul a3 0x0e]

/-- The four columns of the state through a map of columns (R146). -/
def aesColumns (f : Byte → Byte → Byte → Byte → Bytes) (s : Bytes16) : Bytes16 :=
  aesState fun i =>
    (f (aesByte s (4 * (i / 4))) (aesByte s (4 * (i / 4) + 1)) (aesByte s (4 * (i / 4) + 2))
      (aesByte s (4 * (i / 4) + 3))).getD (i % 4) 0

/-- `MixColumns` (R146). -/
def aesMixColumns (s : Bytes16) : Bytes16 := aesColumns aesMixColumn s

/-- `InvMixColumns` (R146). -/
def aesInvMixColumns (s : Bytes16) : Bytes16 := aesColumns aesInvMixColumn s

/-- `E(k, x)`, the cipher; `AddRoundKey` is the exclusive-or with a round key (R146, R147). -/
def aesEncrypt (k x : Bytes16) : Bytes16 :=
  let s := (List.range 9).foldl
    (fun s r => xorBlock (aesMixColumns (aesShiftRows (aesSubBytes s))) (aesRoundKey k (r + 1)))
    (xorBlock x (aesRoundKey k 0))
  xorBlock (aesShiftRows (aesSubBytes s)) (aesRoundKey k 10)

/-- `D(k, y)`, the inverse cipher, the same round keys in reverse order (R148). -/
def aesDecrypt (k y : Bytes16) : Bytes16 :=
  let s := (List.range 9).foldr
    (fun r s => aesInvMixColumns (xorBlock (aesInvSubBytes (aesInvShiftRows s)) (aesRoundKey k (r + 1))))
    (xorBlock y (aesRoundKey k 10))
  xorBlock (aesInvSubBytes (aesInvShiftRows s)) (aesRoundKey k 0)

/-- AES-128 as a value of `BC` (R140). -/
def aes128 : BlockCipher where
  E := aesEncrypt
  D := aesDecrypt

end Sys2Proof.Machine
end

