-- ==== Sys2Proof/Machine/Instances.lean ====
section
/-! DEFINITION. The machine of any instance of NHDP-CORE: execution and step over a `Params` record (spec R6, R20:
`step : Config -> State -> Command -> State x Response`), the test cipher TOY128 (R150), and the two instances the spec's
vectors are computed with. `exec` and `step` are these at `Config.params`. -/

namespace Sys2Proof.Machine

/-- Execution of a decoded command under the parameters `p` (R6, R20). -/
def execWith (p : Params) (i : Instr) (s : State) : Host.Outcome State Fault Refusal :=
  match i with
  | .xtsh key data => execXtshWith p key data s
  | .ecbd key block => execEcbdWith p key block s
  | .cbcd key iv region => execCbcdWith p key iv region s
  | .ctri key nonce offset => execCtri key nonce offset s
  | .ctrr offset data => execCtrrWith p offset data s

/-- One step under the parameters `p` (R6, R20). -/
def stepWith (p : Params) (s : State) : Host.Outcome State Fault Refusal :=
  stepVia (execWith p) s

/-- TOY128, "this spec's own test permutation": addition and subtraction of the key as big-endian integers modulo 2^128
(R150). -/
def toy128 : BlockCipher where
  E k x := beN 16 ((beNat x.val + beNat k.val) % 2 ^ 128)
  D k y := beN 16 ((beNat y.val + 2 ^ 128 - beNat k.val) % 2 ^ 128)

/-- The recommended `MAGIC`, the ASCII bytes `N C A 3` (R6). -/
def recommendedMagic : BytesN 4 := ⟨[0x4e, 0x43, 0x41, 0x33], rfl⟩

/-- The recommended instance: AES-128, `NCA3`, policy `reject` (R6). -/
def aesParams : Params where
  cipher := aes128
  magic := recommendedMagic
  tailPolicy := .reject

/-- The test instance: TOY128, `NCA3`, policy `reject` (R150). -/
def toyParams : Params where
  cipher := toy128
  magic := recommendedMagic
  tailPolicy := .reject

end Sys2Proof.Machine
end

