-- ==== Sys2Proof/Safety.lean ====
section
/-! DEFINITION. What counts as a safe run, and the words the claims are written in: runs, the invariant of spec R20, and
which two states a program cannot tell apart (R17). -/

namespace Sys2Proof.Machine

/-- `n` steps of the machine, stopping at the first fault or refusal. -/
def runFor (n : Nat) (s : State) : Host.Outcome State Fault Refusal := Sys2Proof.core.run n s

/-- The invariant of R20: `key` and `ctr` are present exactly when `valid` is true (R18). -/
abbrev CursorCoherent (s : State) : Prop :=
  s.cur.key.isSome = s.cur.valid ∧ s.cur.ctr.isSome = s.cur.valid

/-- A safe state: no run from it stops. "The model has no stuck state, no hold and no hang" (R197). -/
def SafeFrom (s : State) : Prop := ∀ n, ∃ t, runFor n s = .next t

/-- Bytes 0 to 8 of the counter block, `NONCE` and `CTR_HI`: all that a read depends on besides the key (R11, R130). -/
def counterPrefix (s : State) : Option Bytes := s.cur.ctr.map fun c => c.val.take 9

/-- Two states that differ at most in the hidden field `CTR_LO` (R17). -/
def SameButCounterLow (s t : State) : Prop :=
  s.cur.valid = t.cur.valid ∧ s.cur.key = t.cur.key ∧ counterPrefix s = counterPrefix t ∧
    s.inputs = t.inputs ∧ s.responses = t.responses

/-- The state in which the host is going to present exactly these packets, in order (R198). -/
def presenting (packets : List Bytes) (s : State) : State := { s with inputs := packets.map .command }

/-- Commands executed one after the other (R14: "a program is a list of commands folded through it"). -/
def execAll : List Instr → State → Host.Outcome State Fault Refusal
  | [], s => .next s
  | i :: is, s =>
    match exec i s with
    | .next t => execAll is t
    | .fault r => .fault r
    | .refused r => .refused r

end Sys2Proof.Machine
end

