-- ==== Sys2Proof/Certificates/Slice0/Obligations.lean ====
section
/-! DEFINITION. The statements for the provers. Each `Obligations.<Name>` is a proposition about the machine; its docstring
names the rule of the spec it formalises. The definitions of the namespace `Sys2Proof.Claims` are the closed forms the
statements compare the machine with: they index blocks where the machine loops. -/

namespace Sys2Proof.Claims

open Sys2Proof.Machine

/-- Block j of a buffer, as bytes: `blk(b, j)` (R9). -/
def blockAt (b : Bytes) (j : Nat) : Bytes := slice b (16 * j) (16 * j + 16)

/-- The plaintext of header block b, whose sector is b div 32 and whose place in the sector is b mod 32: whitened, through
`D` under K1, whitened, with the tweak of the sector encrypted under K2 and advanced b mod 32 times (R86, R101). -/
def headerBlockDec (c : BlockCipher) (k1 k2 : Bytes16) (b : Nat) (x : Bytes16) : Bytes16 :=
  let t := mulAlpha^[b % 32] (c.E k2 (tweak (BitVec.ofNat 128 (b / 32))))
  xorBlock (c.D k1 (xorBlock x t)) t

/-- The suffix of chunk i of a read at `offset`: `BE_7` of the block number modulo 2^56 (R124, R125). -/
def chunkSuffix (offset : ByteOffset) (i : Nat) : Bytes :=
  beBytes 7 ((offset.toNat + 16 * i) % 2 ^ 64 / 16 % 2 ^ 56)

/-- Which errors a packet gives rise to, each by its own condition and without regard to the others (R161 to R165, R169). -/
def Raises (p : Bytes) (s : State) : Status → Prop
  | .ok => False
  | .illegalCommand => ∀ i, decode p ≠ .ok i
  | .noCursor => ∃ o d, decode p = .ok (.ctrr o d) ∧ s.cur.valid = false
  | .invalidKeyLength =>
    (∃ k d, decode p = .ok (.xtsh k d) ∧ k.length ≠ 32) ∨ (∃ k b, decode p = .ok (.ecbd k b) ∧ k.length ≠ 16) ∨
      (∃ k v r, decode p = .ok (.cbcd k v r) ∧ k.length ≠ 16) ∨ (∃ k n o, decode p = .ok (.ctri k n o) ∧ k.length ≠ 16)
  | .invalidBufferLength =>
    (∃ k d, decode p = .ok (.xtsh k d) ∧ d.length ≠ 3072) ∨ (∃ k b, decode p = .ok (.ecbd k b) ∧ b.length ≠ 16) ∨
      (∃ k v r, decode p = .ok (.cbcd k v r) ∧ (v.length ≠ 16 ∨ r.length ≠ 112)) ∨
      (∃ k n o, decode p = .ok (.ctri k n o) ∧ n.length ≠ 8)
  | .unsupportedOffsetAlignment => ∃ o d, decode p = .ok (.ctrr o d) ∧ d.length % 16 ≠ 0
  | .formatMismatch => ∃ (k1 k2 m : Bytes16) (d : Bytes), decode p = .ok (.xtsh (k1.val ++ k2.val) d) ∧
      d.length = 3072 ∧ m.val = blockAt d 32 ∧
      (headerBlockDec Config.cipher k1 k2 32 m).val.take 4 ≠ Config.magic.val

/-- The order in which errors are looked for (R168). -/
def errorOrder : List Status :=
  [.illegalCommand, .noCursor, .invalidKeyLength, .invalidBufferLength, .unsupportedOffsetAlignment, .formatMismatch]

/-- The statuses the opcode table lists for a command (R160, column "raised by"). -/
def listedStatuses : Instr → List Status
  | .xtsh .. => [.ok, .invalidKeyLength, .invalidBufferLength, .formatMismatch]
  | .ecbd .. => [.ok, .invalidKeyLength, .invalidBufferLength]
  | .cbcd .. => [.ok, .invalidKeyLength, .invalidBufferLength]
  | .ctri .. => [.ok, .invalidKeyLength, .invalidBufferLength]
  | .ctrr .. => [.ok, .noCursor, .unsupportedOffsetAlignment]

/-- How many payload bytes a command answers when its status is `OK` (R60). -/
def okPayloadLength : Instr → Nat
  | .xtsh .. => 3072
  | .ecbd .. => 16
  | .cbcd .. => 112
  | .ctri .. => 0
  | .ctrr _ data => data.length

/-- The affine map of the S-box: `b xor rotl8(b,1) xor rotl8(b,2) xor rotl8(b,3) xor rotl8(b,4) xor 0x63` (R143). -/
def sboxAffine (b : Byte) : Byte :=
  b ^^^ b.rotateLeft 1 ^^^ b.rotateLeft 2 ^^^ b.rotateLeft 3 ^^^ b.rotateLeft 4 ^^^ 0x63

end Sys2Proof.Claims

open Sys2Proof Sys2Proof.Machine Sys2Proof.Claims

/-! ## The packet -/

/-- R14, R20: when the packet presented next decodes to a command, a step is the execution of that command, in the state
in which the packet is no longer pending. -/
def Obligations.StepRunsDecodedCommand : Prop :=
  ∀ (s : State) (p : Bytes) (rest : List HostInput) (i : Instr),
    s.inputs = .command p :: rest → decode p = .ok i → i.wellFormed = true →
    step s = exec i { s with inputs := rest }

/-- Derived from R61: the decoder's verdict, exactly. The empty packet; byte 0 not one of `01` to `05`; a packet that ends
early, that is, one that more bytes could complete (a closed form of case 3, read from it by inference); a packet with bytes
after a complete one. The spec has one verdict, `illegal`; the four names are the model's choice (DESIGN CHOICE, log entry
16). To each of them the core answers `IllegalCommand`, empty payload, state unchanged. -/
def Obligations.IllegalPacketExactlyWhen : Prop :=
  ∀ p : Bytes,
    (decode p = .error .emptyPacket ↔ p = []) ∧
    (decode p = .error .reservedOpcode ↔ ∃ b rest, p = b :: rest ∧ ¬(1 ≤ b.toNat ∧ b.toNat ≤ 5)) ∧
    (decode p = .error .truncated ↔ p ≠ [] ∧ ∃ ext i, ext ≠ [] ∧ decode (p ++ ext) = .ok i) ∧
    (decode p = .error .trailingBytes ↔ ∃ q ext i, p = q ++ ext ∧ ext ≠ [] ∧ decode q = .ok i) ∧
    ((∀ i, decode p ≠ .ok i) → ∀ (s : State) (rest : List HostInput), s.inputs = .command p :: rest →
      step s = .next { s with inputs := rest, responses := s.responses ++ [⟨.illegalCommand, []⟩] })

/-- R56 to R59, R68: decoding the packet of a well-formed command gives the command back, for all five commands and all
operands a `LEN32` field can carry. -/
def Obligations.DecodeOfEncodeIsTheCommand : Prop :=
  ∀ i : Instr, i.wellFormed = true → decode (encode i) = .ok i

/-- R56, R61, R64: a packet that decodes is the packet of the command it decodes to, and that command is well formed: every
command has one packet. -/
def Obligations.EncodeOfDecodeIsThePacket : Prop :=
  ∀ (p : Bytes) (i : Instr), decode p = .ok i → i.wellFormed = true ∧ encode i = p

/-- 30_encoding.md section 8 and 95_test_vectors.md V-DEC-2: packets written out byte by byte decode to the commands they
stand for, and the two malformed ones of section 8 do not decode. -/
def Obligations.WorkedPacketsDecode : Prop :=
  decode [0x02, 0x00, 0x00, 0x00, 0x10, 0x00, 0x01, 0x02, 0x03, 0x04, 0x05, 0x06, 0x07, 0x08, 0x09, 0x0a, 0x0b, 0x0c,
      0x0d, 0x0e, 0x0f, 0x00, 0x00, 0x00, 0x10, 0x69, 0xc4, 0xe0, 0xd8, 0x6a, 0x7b, 0x04, 0x30, 0xd8, 0xcd, 0xb7, 0x80,
      0x70, 0xb4, 0xc5, 0x5a] =
    .ok (.ecbd (beBytes 16 0x000102030405060708090a0b0c0d0e0f) (beBytes 16 0x69c4e0d86a7b0430d8cdb78070b4c55a)) ∧
  decode [0x04, 0x00, 0x00, 0x00, 0x10, 0x00, 0x01, 0x02, 0x03, 0x04, 0x05, 0x06, 0x07, 0x08, 0x09, 0x0a, 0x0b, 0x0c,
      0x0d, 0x0e, 0x0f, 0x00, 0x00, 0x00, 0x08, 0xa0, 0xa1, 0xa2, 0xa3, 0xa4, 0xa5, 0xa6, 0xa7, 0x00, 0x00, 0x00, 0x00,
      0x00, 0x00, 0x12, 0x30] =
    .ok (.ctri (beBytes 16 0x000102030405060708090a0b0c0d0e0f) (beBytes 8 0xa0a1a2a3a4a5a6a7) 0x1230) ∧
  decode [0x05, 0x00, 0x00, 0x00, 0x00, 0x00, 0x00, 0x12, 0x30, 0x00, 0x00, 0x00, 0x10, 0x00, 0x00, 0x00, 0x00, 0x00,
      0x00, 0x00, 0x00, 0x00, 0x00, 0x00, 0x00, 0x00, 0x00, 0x00, 0x00] = .ok (.ctrr 0x1230 (beBytes 16 0)) ∧
  decode [0x02, 0x00, 0x00, 0x00, 0x00, 0x00, 0x00, 0x00, 0x00] = .ok (.ecbd [] []) ∧
  decode [0x07] = .error .reservedOpcode ∧
  decode [0x02, 0x00, 0x00, 0x00, 0x10, 0x00, 0x01] = .error .truncated

/-- R60, R160: the seven status codes as the table of R160 has them, and no other code is produced; a response is its status
byte, the length of its payload and the payload; these bytes determine it, for every payload a `LEN32` can announce. -/
def Obligations.ResponseBytesDetermineResponse : Prop :=
  (Status.ok.code = 0x00 ∧ Status.invalidKeyLength.code = 0x01 ∧ Status.invalidBufferLength.code = 0x02 ∧
    Status.formatMismatch.code = 0x03 ∧ Status.unsupportedOffsetAlignment.code = 0x04 ∧ Status.noCursor.code = 0x05 ∧
    Status.illegalCommand.code = 0x06) ∧
  (∀ r : Response, r.encode = r.status.code :: (beBytes 4 r.payload.length ++ r.payload) ∧ r.status.code.toNat ≤ 6) ∧
  ∀ r1 r2 : Response, r1.payload.length < 2 ^ 32 → r2.payload.length < 2 ^ 32 → r1.encode = r2.encode → r1 = r2

/-! ## XTSH -/

/-- R101, R103: XTSH in every state and on every operand. Its two size errors in order, `FormatMismatch` when the first four
bytes of decrypted sector 1 differ from `MAGIC`, else `OK` with 3072 bytes, each block decrypted in sector 0 to 5. Nothing
but the response is added to the state. -/
def Obligations.XtshAnswersByItsAlgorithm : Prop :=
  ∀ s : State,
    (∀ key data, key.length ≠ 32 →
      exec (.xtsh key data) s = .next { s with responses := s.responses ++ [⟨.invalidKeyLength, []⟩] }) ∧
    (∀ key data, key.length = 32 → data.length ≠ 3072 →
      exec (.xtsh key data) s = .next { s with responses := s.responses ++ [⟨.invalidBufferLength, []⟩] }) ∧
    (∀ (k1 k2 m : Bytes16) (data : Bytes), data.length = 3072 → m.val = blockAt data 32 →
      (headerBlockDec Config.cipher k1 k2 32 m).val.take 4 ≠ Config.magic.val →
      exec (.xtsh (k1.val ++ k2.val) data) s =
        .next { s with responses := s.responses ++ [⟨.formatMismatch, []⟩] }) ∧
    (∀ (k1 k2 m : Bytes16) (data : Bytes), data.length = 3072 → m.val = blockAt data 32 →
      (headerBlockDec Config.cipher k1 k2 32 m).val.take 4 = Config.magic.val →
      ∃ payload, exec (.xtsh (k1.val ++ k2.val) data) s =
          .next { s with responses := s.responses ++ [⟨.ok, payload⟩] } ∧
        payload.length = 3072 ∧
        ∀ (b : Nat) (x : Bytes16), b < 192 → x.val = blockAt data b →
          blockAt payload b = (headerBlockDec Config.cipher k1 k2 b x).val)

/-- 95_test_vectors.md S1 from R80, R86, R87: a header encrypted by the reference encryptor and showing `MAGIC` decrypts to
itself. -/
def Obligations.XtshUndoesTheReferenceEncryptor : Prop :=
  ∀ (s : State) (k1 k2 : Bytes16) (plain : Bytes), plain.length = 3072 → slice plain 512 516 = Config.magic.val →
    exec (.xtsh (k1.val ++ k2.val) (xtsHeaderEnc Config.cipher k1 k2 plain)) s =
      .next { s with responses := s.responses ++ [⟨.ok, plain⟩] }

/-- R87: the area call advances the sector index by exactly one per 512 bytes, modulo 2^128, whatever the cipher: the area
over two runs of sectors is the area over the first and then the area over the second from the index reached. -/
def Obligations.AreaCallAdvancesTheSectorIndex : Prop :=
  ∀ (c : BlockCipher) (k1 k2 : Bytes16) (start : SectorIndex) (n m : Nat) (a b : Bytes),
    a.length = 512 * n → b.length = 512 * m →
    xtsAreaDec c k1 k2 start (a ++ b) =
      xtsAreaDec c k1 k2 start a ++ xtsAreaDec c k1 k2 (start + BitVec.ofNat 128 n) b ∧
    (xtsAreaDec c k1 k2 start a).length = a.length

/-- R82: byte i of `TWEAK(sector)` is bits 127 - 8i to 120 - 8i of the sector index: big-endian. -/
def Obligations.TweakIsBigEndian : Prop :=
  ∀ (sector : SectorIndex) (i : Nat), i < 16 →
    (tweak sector).val[i]? = some (sector.extractLsb' (8 * (15 - i)) 8)

/-- R84: `MULALPHA` by its integer form: double modulo 2^128 as a little-endian integer, `xor 0x87` when the top bit was
set. -/
def Obligations.MulAlphaIsDoublingInTheField : Prop :=
  ∀ t : Bytes16,
    leNat (mulAlpha t).val =
      (if 2 ^ 127 ≤ leNat t.val then (2 * leNat t.val % 2 ^ 128) ^^^ 0x87 else 2 * leNat t.val % 2 ^ 128)

/-! ## ECBD -/

/-- R111, R112: ECBD in every state and on every operand. -/
def Obligations.EcbdAnswersByItsAlgorithm : Prop :=
  ∀ s : State,
    (∀ key block, key.length ≠ 16 →
      exec (.ecbd key block) s = .next { s with responses := s.responses ++ [⟨.invalidKeyLength, []⟩] }) ∧
    (∀ key block, key.length = 16 → block.length ≠ 16 →
      exec (.ecbd key block) s = .next { s with responses := s.responses ++ [⟨.invalidBufferLength, []⟩] }) ∧
    (∀ key block : Bytes16,
      exec (.ecbd key.val block.val) s =
        .next { s with responses := s.responses ++ [⟨.ok, (Config.cipher.D key block).val⟩] })

/-! ## CBCD -/

/-- R116, R117: CBCD in every state and on every operand. Key, IV and region are checked in that order; on `OK` block j is
`D` of ciphertext block j combined with the IV (j = 0) or with ciphertext block j - 1. -/
def Obligations.CbcdAnswersByItsAlgorithm : Prop :=
  ∀ s : State,
    (∀ key iv region, key.length ≠ 16 →
      exec (.cbcd key iv region) s = .next { s with responses := s.responses ++ [⟨.invalidKeyLength, []⟩] }) ∧
    (∀ key iv region, key.length = 16 → iv.length ≠ 16 →
      exec (.cbcd key iv region) s = .next { s with responses := s.responses ++ [⟨.invalidBufferLength, []⟩] }) ∧
    (∀ key iv region, key.length = 16 → iv.length = 16 → region.length ≠ 112 →
      exec (.cbcd key iv region) s = .next { s with responses := s.responses ++ [⟨.invalidBufferLength, []⟩] }) ∧
    (∀ (key iv : Bytes16) (region : Bytes), region.length = 112 →
      ∃ payload, exec (.cbcd key.val iv.val region) s =
          .next { s with responses := s.responses ++ [⟨.ok, payload⟩] } ∧
        payload.length = 112 ∧
        ∀ (j : Nat) (x prev : Bytes16), j < 7 → x.val = blockAt region j →
          prev.val = (if j = 0 then iv.val else blockAt region (j - 1)) →
          blockAt payload j = (xorBlock (Config.cipher.D key x) prev).val)

/-- R118, first two bullets (the property 90_conflicts.md C2 corrects): changing ciphertext block k changes plaintext blocks
k and k + 1 and no other, block k + 1 in exactly the changed bits; changing the IV changes block 0 alone, in exactly the
changed bits. -/
def Obligations.CbcdErrorPropagation : Prop :=
  ∀ (s : State) (key iv iv2 : Bytes16) (r1 r2 : Bytes) (k : Nat), r1.length = 112 → r2.length = 112 → k < 7 →
    (∀ j, j < 7 → j ≠ k → blockAt r1 j = blockAt r2 j) → blockAt r1 k ≠ blockAt r2 k →
    ∃ p1 p2 p3,
      exec (.cbcd key.val iv.val r1) s = .next { s with responses := s.responses ++ [⟨.ok, p1⟩] } ∧
      exec (.cbcd key.val iv.val r2) s = .next { s with responses := s.responses ++ [⟨.ok, p2⟩] } ∧
      exec (.cbcd key.val iv2.val r1) s = .next { s with responses := s.responses ++ [⟨.ok, p3⟩] } ∧
      (∀ j, j < 7 → j ≠ k → j ≠ k + 1 → blockAt p1 j = blockAt p2 j) ∧
      blockAt p1 k ≠ blockAt p2 k ∧
      (k < 6 → xorBytes (blockAt p1 (k + 1)) (blockAt p2 (k + 1)) = xorBytes (blockAt r1 k) (blockAt r2 k)) ∧
      (∀ j, 0 < j → j < 7 → blockAt p1 j = blockAt p3 j) ∧
      xorBytes (blockAt p1 0) (blockAt p3 0) = xorBytes iv.val iv2.val

/-- 95_test_vectors.md S1 from R80, R116: a region encrypted by the reference encryptor decrypts to itself. -/
def Obligations.CbcdUndoesTheReferenceEncryptor : Prop :=
  ∀ (s : State) (key iv : Bytes16) (plain : Bytes), plain.length = 112 →
    exec (.cbcd key.val iv.val (cbcEnc Config.cipher key iv plain)) s =
      .next { s with responses := s.responses ++ [⟨.ok, plain⟩] }

/-! ## CTRI -/

/-- R121: CTRI in every state and on every operand. On `OK` all of `CUR` is written: the key, the nonce in the order
supplied, `00`, the low 56 bits of the initial block number; the payload is empty. On an error `CUR` is as before. -/
def Obligations.CtriAnswersByItsAlgorithm : Prop :=
  ∀ s : State,
    (∀ key nonce offset, key.length ≠ 16 →
      exec (.ctri key nonce offset) s = .next { s with responses := s.responses ++ [⟨.invalidKeyLength, []⟩] }) ∧
    (∀ key nonce offset, key.length = 16 → nonce.length ≠ 8 →
      exec (.ctri key nonce offset) s = .next { s with responses := s.responses ++ [⟨.invalidBufferLength, []⟩] }) ∧
    (∀ (key ctr : Bytes16) (nonce : Bytes) (offset : ByteOffset), nonce.length = 8 →
      ctr.val = nonce ++ [0x00] ++ beBytes 7 (offset.toNat / 16 % 2 ^ 56) →
      exec (.ctri key.val nonce offset) s =
        .next { s with cur := ⟨true, some key, some ctr⟩, responses := s.responses ++ [⟨.ok, []⟩] })

/-- R122, third bullet: the initial offset has no observable effect. Whatever the host does next, the responses after two
constructions that differ only in the offset are the same at every step. -/
def Obligations.CtriOffsetIsUnobservable : Prop :=
  ∀ (s s1 s2 t1 : State) (key nonce : Bytes) (o1 o2 : ByteOffset) (n : Nat),
    exec (.ctri key nonce o1) s = .next s1 → exec (.ctri key nonce o2) s = .next s2 → runFor n s1 = .next t1 →
    ∃ t2, runFor n s2 = .next t2 ∧ t2.responses = t1.responses

/-- R88: byte i of `SUFFIX56(o)` is bits 59 - 8i to 52 - 8i of o; the low 4 bits and the high 4 bits of o do not enter. -/
def Obligations.SuffixIsBits59To4 : Prop :=
  (∀ (o : ByteOffset) (i : Nat), i < 7 → (suffix56 o).val[i]? = some (o.extractLsb' (4 + 8 * (6 - i)) 8)) ∧
  (∀ o : ByteOffset, suffix56 o = suffix56 (o - o % 16)) ∧
  (∀ (o : ByteOffset) (m : Nat), suffix56 o = suffix56 (o + BitVec.ofNat 64 (m * 2 ^ 60)))

/-! ## CTRR -/

/-- R125, R126 in the algorithm of R123: CTRR on this machine (policy `reject`) in every state with a cursor or without one. `NoCursor`
first; then the length; else `OK`, each chunk combined with `E` of the counter block whose bytes 9 to 15 hold the chunk's
block number, `CUR.CTR` left as the last chunk set it, nothing else changed. -/
def Obligations.CtrrAnswersByItsAlgorithm : Prop :=
  ∀ (s : State) (offset : ByteOffset) (data : Bytes),
    (s.cur.valid = false →
      exec (.ctrr offset data) s = .next { s with responses := s.responses ++ [⟨.noCursor, []⟩] }) ∧
    (s.cur.valid = true → data.length % 16 ≠ 0 →
      exec (.ctrr offset data) s =
        .next { s with responses := s.responses ++ [⟨.unsupportedOffsetAlignment, []⟩] }) ∧
    (∀ key ctr : Bytes16, s.cur = ⟨true, some key, some ctr⟩ → data.length % 16 = 0 →
      ∃ (payload : Bytes) (ctr1 : Bytes16), exec (.ctrr offset data) s =
          .next { s with cur := ⟨true, some key, some ctr1⟩, responses := s.responses ++ [⟨.ok, payload⟩] } ∧
        payload.length = data.length ∧
        (∀ (i : Nat) (block : Bytes16), i < data.length / 16 → block.val = ctr.val.take 9 ++ chunkSuffix offset i →
          blockAt payload i = xorBytes (blockAt data i) (Config.cipher.E key block).val) ∧
        ctr1.val = (if data = [] then ctr.val
          else ctr.val.take 9 ++ chunkSuffix offset (data.length / 16 - 1)))

/-- R132, for every instance: what a CTRR leaves in `CUR`. `VALID`, `KEY` and bytes 0 to 8 of `CTR` never change; bytes 9 to
15 are the suffix of the last chunk when the command is `OK` and processed one, and as before otherwise. -/
def Obligations.CtrrLeavesTheLastSuffix : Prop :=
  ∀ (p : Params) (s t : State) (offset : ByteOffset) (data : Bytes), execWith p (.ctrr offset data) s = .next t →
    t.cur.valid = s.cur.valid ∧ t.cur.key = s.cur.key ∧ counterPrefix t = counterPrefix s ∧
    ∃ r, t.responses = s.responses ++ [r] ∧
      ((r.status = .ok ∧ 16 ≤ data.length →
        t.cur.ctr.map (fun c => c.val.drop 9) =
          some (suffix56 (offset + BitVec.ofNat 64 (16 * (data.length / 16 - 1)))).val) ∧
       (¬(r.status = .ok ∧ 16 ≤ data.length) → t.cur.ctr = s.cur.ctr))

/-- R128: the two tail policies, for every cipher and magic. Under `reject` a length that is no multiple of 16 raises
`UnsupportedOffsetAlignment` and nothing changes; under `drop` the whole chunks are read as they would be alone and the
tail is returned as it came, and with fewer than 16 bytes nothing is processed. -/
def Obligations.TailPolicies : Prop :=
  ∀ (p : Params) (s : State) (key ctr : Bytes16) (offset : ByteOffset) (data : Bytes),
    s.cur = ⟨true, some key, some ctr⟩ → data.length % 16 ≠ 0 →
    (p.tailPolicy = .reject → execWith p (.ctrr offset data) s =
      .next { s with responses := s.responses ++ [⟨.unsupportedOffsetAlignment, []⟩] }) ∧
    (p.tailPolicy = .drop → ∃ (whole : Bytes) (cur1 : Cursor),
      execWith p (.ctrr offset (data.take (16 * (data.length / 16)))) s =
        .next { s with cur := cur1, responses := s.responses ++ [⟨.ok, whole⟩] } ∧
      execWith p (.ctrr offset data) s =
        .next { s with cur := cur1,
                       responses := s.responses ++ [⟨.ok, whole ++ data.drop (16 * (data.length / 16))⟩] } ∧
      (data.length < 16 → whole = [] ∧ cur1 = s.cur))

/-- R127: CTRR is its own inverse. Reading the payload back at the same offset gives the data, and leaves `CUR` as the
first read left it. -/
def Obligations.CtrrIsItsOwnInverse : Prop :=
  ∀ (s t : State) (offset : ByteOffset) (data payload : Bytes),
    exec (.ctrr offset data) s = .next t → t.responses = s.responses ++ [⟨.ok, payload⟩] →
    exec (.ctrr offset payload) t = .next { t with responses := t.responses ++ [⟨.ok, data⟩] }

/-- R130: two reads one after the other give the payload of one read over both, whichever of the two is issued first; issued
in the order of their offsets they leave the cursor the one read leaves. -/
def Obligations.CtrrReadsCompose : Prop :=
  ∀ (s : State) (key ctr : Bytes16) (offset : ByteOffset) (d1 d2 : Bytes),
    s.cur = ⟨true, some key, some ctr⟩ → d1.length % 16 = 0 → d2.length % 16 = 0 →
    ∃ (x y : Bytes) (t u v w z : State),
      exec (.ctrr offset d1) s = .next t ∧ t.responses = s.responses ++ [⟨.ok, x⟩] ∧
      exec (.ctrr (offset + BitVec.ofNat 64 d1.length) d2) t = .next u ∧ u.responses = t.responses ++ [⟨.ok, y⟩] ∧
      exec (.ctrr (offset + BitVec.ofNat 64 d1.length) d2) s = .next w ∧ w.responses = s.responses ++ [⟨.ok, y⟩] ∧
      exec (.ctrr offset d1) w = .next z ∧ z.responses = w.responses ++ [⟨.ok, x⟩] ∧
      exec (.ctrr offset (d1 ++ d2)) s = .next v ∧ v.responses = s.responses ++ [⟨.ok, x ++ y⟩] ∧
      v.cur = u.cur

/-- R130: "the payload of `CTRR(offset, data)` is a function of `CUR.KEY`, `CUR.CTR[0:9)`, `offset` and `data` only". -/
def Obligations.CtrrDependsOnKeyAndPrefixOnly : Prop :=
  ∀ (s t u : State) (offset : ByteOffset) (data : Bytes),
    s.cur.valid = t.cur.valid → s.cur.key = t.cur.key → counterPrefix s = counterPrefix t →
    exec (.ctrr offset data) s = .next u →
    ∃ (v : State) (r : Response), exec (.ctrr offset data) t = .next v ∧
      u.responses = s.responses ++ [r] ∧ v.responses = t.responses ++ [r]

/-- R130, history: after any list of commands among which there is no CTRI, a read answers as it would have answered before
them. -/
def Obligations.CtrrIsIndependentOfHistory : Prop :=
  ∀ (history : List Instr) (s t u : State) (offset : ByteOffset) (data : Bytes),
    (∀ key nonce o, .ctri key nonce o ∉ history) → execAll history s = .next t →
    exec (.ctrr offset data) s = .next u →
    ∃ (v : State) (r : Response), exec (.ctrr offset data) t = .next v ∧
      u.responses = s.responses ++ [r] ∧ v.responses = t.responses ++ [r]

/-- R129, R37: a read at offset o is a read at `o - (o mod 16)`, in every state and on every data: no offset is refused. -/
def Obligations.CtrrIgnoresLowOffsetBits : Prop :=
  ∀ (s : State) (offset : ByteOffset) (data : Bytes),
    exec (.ctrr offset data) s = exec (.ctrr (offset - offset % 16) data) s

/-- R131: two offsets that differ by a multiple of 2^60 bytes give the same read. -/
def Obligations.CtrrOffsetsRepeatEvery2Pow60 : Prop :=
  ∀ (s : State) (offset : ByteOffset) (m : Nat) (data : Bytes),
    exec (.ctrr offset data) s = exec (.ctrr (offset + BitVec.ofNat 64 (m * 2 ^ 60)) data) s

/-! ## Statuses and errors -/

/-- R168: a packet is answered with exactly one status, the first error of the order that applies, else `OK`. -/
def Obligations.FirstErrorInOrderIsReported : Prop :=
  ∀ (s : State) (p : Bytes) (rest : List HostInput), CursorCoherent s → s.inputs = .command p :: rest →
    ∃ (t : State) (r : Response), step s = .next t ∧ t.responses = s.responses ++ [r] ∧
      ((r.status = .ok ∧ ∀ e ∈ errorOrder, ¬Raises p s e) ∨
        ∃ before after, errorOrder = before ++ r.status :: after ∧ Raises p s r.status ∧ ∀ e ∈ before, ¬Raises p s e)

/-- R60, R160: a command adds exactly one response, with a status the opcode table lists for it, an empty payload on any
error, and the payload length of R60 on `OK`; nothing pending is taken from or added to the inputs. -/
def Obligations.OneListedResponsePerCommand : Prop :=
  ∀ (i : Instr) (s t : State), exec i s = .next t →
    t.inputs = s.inputs ∧
    ∃ r, t.responses = s.responses ++ [r] ∧ r.status ∈ listedStatuses i ∧
      r.payload.length = (if r.status = .ok then okPayloadLength i else 0)

/-- R166: an error changes nothing. When a command ends in any status but `OK`, the state after it is the state before it
with the response added, whose payload is empty. -/
def Obligations.ErrorsHaveNoEffect : Prop :=
  ∀ (i : Instr) (s t : State) (r : Response), exec i s = .next t → t.responses = s.responses ++ [r] → r.status ≠ .ok →
    r.payload = [] ∧ t = { s with responses := s.responses ++ [r] }

/-- R15, R167: no error is sticky. A command that follows an error answers, and leaves `CUR`, as it would have without the
erring command before it. -/
def Obligations.ErrorsAreNotSticky : Prop :=
  ∀ (i j : Instr) (s t u : State) (r : Response),
    exec i s = .next t → t.responses = s.responses ++ [r] → r.status ≠ .ok → exec j s = .next u →
    ∃ (v : State) (q : Response), exec j t = .next v ∧ v.cur = u.cur ∧
      u.responses = s.responses ++ [q] ∧ v.responses = t.responses ++ [q]

/-- R21: XTSH, ECBD and CBCD are pure. Each has one response, the same in every state, and changes nothing else. -/
def Obligations.PureCommandsIgnoreTheCursor : Prop :=
  (∀ key data, ∃ r : Response, ∀ s : State,
    exec (.xtsh key data) s = .next { s with responses := s.responses ++ [r] }) ∧
  (∀ key block, ∃ r : Response, ∀ s : State,
    exec (.ecbd key block) s = .next { s with responses := s.responses ++ [r] }) ∧
  (∀ key iv region, ∃ r : Response, ∀ s : State,
    exec (.cbcd key iv region) s = .next { s with responses := s.responses ++ [r] })

/-! ## The whole machine -/

/-- R20: every step keeps the invariant that `key` and `ctr` are present exactly when `valid` is true. -/
def Obligations.StepKeepsCursorCoherent : Prop :=
  ∀ s t : State, CursorCoherent s → step s = .next t → CursorCoherent t

/-- R18, R19: the state after reset meets the invariant. -/
def Obligations.ResetIsCursorCoherent : Prop := CursorCoherent State.reset

/-- R197: from every coherent state every run goes on: no fault, no refusal, whatever the host presents. -/
def Obligations.CoherentStatesAreSafe : Prop := ∀ s : State, CursorCoherent s → SafeFrom s

/-- R19: the state after reset. `VALID` is 0, `KEY` and `CTR` hold no value, no command is in execution and no response
pending. -/
def Obligations.ResetLeavesNoCursor : Prop :=
  State.reset.cur.valid = false ∧ State.reset.cur.key = none ∧ State.reset.cur.ctr = none ∧
    State.reset.inputs = [] ∧ State.reset.responses = []

/-- R190, R191 with log entry 5 (the model's choice: what the host presents after the reset is still presented): the reset
event, in any state, leaves the state after reset. -/
def Obligations.ResetEventLeavesTheResetState : Prop :=
  ∀ (s : State) (rest : List HostInput), s.inputs = .reset :: rest →
    step s = .next { State.reset with inputs := rest }

/-- R198: with nothing presented, nothing changes. -/
def Obligations.IdleStepChangesNothing : Prop :=
  ∀ s : State, s.inputs = [] → step s = .next s

/-- R43, R198: packets are executed one at a time in the order presented and answered in the same order, one response each:
after k steps the first k are answered and the others still to come, and when all are answered nothing further happens. -/
def Obligations.ResponsesComeInOrder : Prop :=
  ∀ (s : State) (packets : List Bytes), CursorCoherent s →
    ∃ rs : List Response, rs.length = packets.length ∧
      (∀ k, k ≤ packets.length → ∃ t, runFor k (presenting packets s) = .next t ∧
        t.inputs = (packets.drop k).map .command ∧ t.responses = s.responses ++ rs.take k) ∧
      ∀ n, packets.length ≤ n → runFor n (presenting packets s) = runFor packets.length (presenting packets s)

/-- R12: who writes `CUR`. `VALID`, `KEY`, `NONCE` and `CTR_HI` change only in a reset or in a CTRI whose operands have the
right sizes; anything of `CUR` changes only in one of these or in a CTRR. -/
def Obligations.OnlyCursorCommandsWriteTheCursor : Prop :=
  ∀ s t : State, step s = .next t →
    ((∃ rest, s.inputs = .reset :: rest) ∨
     (∃ p rest key nonce o, s.inputs = .command p :: rest ∧ decode p = .ok (.ctri key nonce o) ∧
       key.length = 16 ∧ nonce.length = 8) ∨
     (t.cur.valid = s.cur.valid ∧ t.cur.key = s.cur.key ∧ counterPrefix t = counterPrefix s ∧
       (t.cur = s.cur ∨ ∃ p rest o d, s.inputs = .command p :: rest ∧ decode p = .ok (.ctrr o d))))

/-- R17: `CTR_LO` is hidden. Two states that differ in it alone stay so through every run and answer the same, whatever the
host does. -/
def Obligations.CounterLowIsNeverObservable : Prop :=
  ∀ (n : Nat) (s t s1 : State), SameButCounterLow s t → runFor n s = .next s1 →
    ∃ t1, runFor n t = .next t1 ∧ SameButCounterLow s1 t1

/-- R6, R20: the machine is the step function over a configuration record, at its own parameters. -/
def Obligations.MachineIsTheConfiguredMachine : Prop :=
  (∀ (i : Instr) (s : State), exec i s = execWith Config.params i s) ∧ ∀ s : State, step s = stepWith Config.params s

/-! ## The block cipher -/

/-- R80: the machine's open cipher meets the contract, and that is all that is known of it. -/
def Obligations.OpenCipherMeetsTheContract : Prop := Config.cipher.Lawful

/-- R140, R148: AES-128, the recommended value of `BC`, meets the contract of R80: for every key, `E` and `D` undo each
other. -/
def Obligations.AesMeetsTheContract : Prop := aes128.Lawful

/-- R150: the test cipher meets the contract of R80. -/
def Obligations.ToyCipherMeetsTheContract : Prop := toy128.Lawful

/-- R149: the known answers of AES-128. -/
def Obligations.AesKnownAnswers : Prop :=
  aes128.E (beN 16 0x000102030405060708090a0b0c0d0e0f) (beN 16 0x00112233445566778899aabbccddeeff) =
    beN 16 0x69c4e0d86a7b0430d8cdb78070b4c55a ∧
  aes128.D (beN 16 0x000102030405060708090a0b0c0d0e0f) (beN 16 0x69c4e0d86a7b0430d8cdb78070b4c55a) =
    beN 16 0x00112233445566778899aabbccddeeff ∧
  aes128.E (beN 16 0x2b7e151628aed2a6abf7158809cf4f3c) (beN 16 0x3243f6a8885a308d313198a2e0370734) =
    beN 16 0x3925841d02dc09fbdc118597196a0b32 ∧
  aes128.E (beN 16 0) (beN 16 0) = beN 16 0x66e94bd4ef8a2c3b884cfa59ca342b2e ∧
  aes128.D (beN 16 0x000102030405060708090a0b0c0d0e0f) (beN 16 0) = beN 16 0x7b1d29a16cf8ccab84f0b8a598e42fa6 ∧
  aes128.D (beN 16 0x000102030405060708090a0b0c0d0e0f) (beN 16 0xffffffffffffffffffffffffffffffff) =
    beN 16 0x776f8fcf829163f37d8b6945662b30ce

/-- R143, R144: the S-box table is the affine map of the inverse in GF(2^8), the inverse of 00 taken as 00, and the second
table inverts the first. -/
def Obligations.SboxIsAffineOfInverse : Prop :=
  aesSbox 0x00 = sboxAffine 0x00 ∧
  (∀ a : Byte, a ≠ 0x00 → ∃ b : Byte, aesMul a b = 0x01 ∧ aesSbox a = sboxAffine b) ∧
  ∀ a : Byte, aesInvSbox (aesSbox a) = a
end

