-- ==== Sys2Proof/Laws/Bytes.lean ====
section
/-! SUPPORT. The small lemmas of the byte-string operations: encodings and their inverses, slices, exclusive-or, blocks. -/

namespace Sys2Proof.Machine

/-- `beNat` over an accumulator. -/
theorem foldl_beNat (b : Bytes) (acc : Nat) :
    b.foldl (fun a d => a * 256 + d.toNat) acc = acc * 256 ^ b.length + beNat b := by
  induction b generalizing acc with
  | nil => simp [beNat]
  | cons d b ih =>
    have h : beNat (d :: b) = b.foldl (fun a d => a * 256 + d.toNat) (0 * 256 + d.toNat) := rfl
    rw [h, List.foldl_cons, ih, ih, List.length_cons, Nat.pow_succ]
    ring

@[simp] theorem beNat_nil : beNat [] = 0 := rfl

/-- The first byte is the most significant. -/
theorem beNat_cons (d : Byte) (b : Bytes) : beNat (d :: b) = d.toNat * 256 ^ b.length + beNat b := by
  have h := foldl_beNat b (0 * 256 + d.toNat)
  simpa [beNat] using h

/-- A big-endian integer of n bytes is below 256^n. -/
theorem beNat_lt (b : Bytes) : beNat b < 256 ^ b.length := by
  induction b with
  | nil => simp
  | cons d b ih =>
    have hd : d.toNat < 256 := d.isLt
    have : d.toNat * 256 ^ b.length ≤ 255 * 256 ^ b.length := Nat.mul_le_mul_right _ (by omega)
    rw [beNat_cons, List.length_cons, Nat.pow_succ]
    omega

/-- Reading back an n-byte big-endian encoding gives the integer modulo 256^n. -/
theorem beNat_beBytes (n x : Nat) : beNat (beBytes n x) = x % 256 ^ n := by
  induction n with
  | zero => simp [beBytes, Nat.mod_one]
  | succ n ih =>
    have hs : x >>> (8 * n) = x / 256 ^ n := by
      rw [Nat.shiftRight_eq_div_pow, Nat.pow_mul]
    have hm : x % (256 ^ n * 256) = x % 256 ^ n + 256 ^ n * (x / 256 ^ n % 256) := Nat.mod_mul
    rw [beBytes, beNat_cons, beBytes_length, ih, hs, BitVec.toNat_ofNat, Nat.pow_succ 256, hm, Nat.mul_comm,
      Nat.add_comm]

/-- Only the low n bytes of the integer enter its n-byte encoding. -/
theorem beBytes_mod (n x : Nat) : beBytes n (x % 256 ^ n) = beBytes n x := by
  have key : ∀ m k, m ≤ k → beBytes m (x % 256 ^ k) = beBytes m x := by
    intro m
    induction m with
    | zero => intro k _; rfl
    | succ m ih =>
      intro k hk
      rw [beBytes, beBytes, ih k (by omega)]
      congr 1
      apply BitVec.eq_of_toNat_eq
      obtain ⟨j, rfl⟩ := Nat.exists_eq_add_of_le hk
      simp only [BitVec.toNat_ofNat, Nat.shiftRight_eq_div_pow, Nat.pow_mul]
      rw [show (2 ^ 8 : Nat) = 256 from rfl, show 256 ^ (m + 1 + j) = 256 ^ m * 256 ^ (j + 1) by ring,
        Nat.mod_mul_right_div_self, Nat.pow_succ, Nat.mod_mul_left_mod]
  exact key n n le_rfl

/-- Encoding the integer of a byte string gives the byte string back. -/
theorem beBytes_beNat (b : Bytes) : beBytes b.length (beNat b) = b := by
  induction b with
  | nil => rfl
  | cons d b ih =>
    have hb := beNat_lt b
    have hs : beNat (d :: b) >>> (8 * b.length) = d.toNat := by
      rw [Nat.shiftRight_eq_div_pow, Nat.pow_mul, beNat_cons, show (2 ^ 8 : Nat) = 256 from rfl,
        Nat.mul_comm, Nat.mul_add_div (by positivity), Nat.div_eq_of_lt hb, Nat.add_zero]
    rw [List.length_cons, beBytes, hs, ← beBytes_mod, beNat_cons, Nat.mul_add_mod_self_right,
      Nat.mod_eq_of_lt hb, ih]
    simp

/-- Two encodings of integers in range agree only when the integers do. -/
theorem beBytes_inj {n x y : Nat} (hx : x < 256 ^ n) (hy : y < 256 ^ n) (h : beBytes n x = beBytes n y) : x = y := by
  have := congrArg beNat h
  rwa [beNat_beBytes, beNat_beBytes, Nat.mod_eq_of_lt hx, Nat.mod_eq_of_lt hy] at this

/-- A slice inside the buffer has the length its bounds say. -/
theorem slice_length {b : Bytes} {lo hi : Nat} (h : hi ≤ b.length) : (slice b lo hi).length = hi - lo := by
  simp [slice]
  omega

@[simp] theorem beN_val (n x : Nat) : (beN n x).val = beBytes n x := rfl

/-- An operand has the demanded length exactly when it can be seen at it. -/
theorem asBytesN_eq_some {n : Nat} {b : Bytes} {k : BytesN n} : asBytesN n b = some k ↔ k.val = b := by
  unfold asBytesN
  split <;> rename_i h
  · exact ⟨fun e => by cases e; rfl, fun e => by cases k; simp_all⟩
  · constructor
    · intro e
      cases e
    · intro e
      exact absurd (e ▸ k.property) h

/-- An operand of another length cannot be seen at the demanded one. -/
theorem asBytesN_eq_none {n : Nat} {b : Bytes} : asBytesN n b = none ↔ b.length ≠ n := by
  unfold asBytesN
  split <;> simp_all

@[simp] theorem asBytesN_val {n : Nat} (k : BytesN n) : asBytesN n k.val = some k := asBytesN_eq_some.mpr rfl

@[simp] theorem xorBytes_length (a b : Bytes) : (xorBytes a b).length = min a.length b.length := by
  simp [xorBytes]

@[simp] theorem xorBlock_val (a b : Bytes16) : (xorBlock a b).val = xorBytes a.val b.val := rfl

/-- Exclusive-or with the same byte string twice gives the first back. -/
theorem xorBytes_cancel {a b : Bytes} (h : a.length = b.length) : xorBytes (xorBytes a b) b = a := by
  induction a generalizing b with
  | nil => cases b <;> rfl
  | cons d a ih =>
    cases b with
    | nil => simp at h
    | cons e b =>
      have := ih (b := b) (by simpa using h)
      simp_all [xorBytes]

/-- Exclusive-or does not depend on the order. -/
theorem xorBytes_comm (a b : Bytes) : xorBytes a b = xorBytes b a := by
  induction a generalizing b with
  | nil => cases b <;> rfl
  | cons d a ih => cases b <;> simp_all [xorBytes, BitVec.xor_comm]

/-- Whitening twice with the same block gives the block back (R89: "exact; self-inverse"). -/
@[simp] theorem xorBlock_cancel (a b : Bytes16) : xorBlock (xorBlock a b) b = a :=
  Subtype.ext (xorBytes_cancel (a.property.trans b.property.symm))

@[simp] theorem ofBlocks_nil : ofBlocks [] = [] := rfl

@[simp] theorem ofBlocks_cons (x : Bytes16) (xs : List Bytes16) : ofBlocks (x :: xs) = x.val ++ ofBlocks xs := rfl

@[simp] theorem ofBlocks_append (xs ys : List Bytes16) : ofBlocks (xs ++ ys) = ofBlocks xs ++ ofBlocks ys := by
  induction xs <;> simp_all

/-- A list of blocks tiles 16 bytes a block. -/
@[simp] theorem ofBlocks_length (xs : List Bytes16) : (ofBlocks xs).length = 16 * xs.length := by
  induction xs with
  | nil => rfl
  | cons x xs ih => simp [ih, x.property]; omega

/-- The blocks taken, when the buffer has so many. -/
theorem takeBlocks_length {n : Nat} {b : Bytes} (h : 16 * n ≤ b.length) : (takeBlocks n b).length = n := by
  induction n generalizing b with
  | zero => rfl
  | succ n ih => simp [takeBlocks, show 16 ≤ b.length by omega, ih (b := b.drop 16) (by simp; omega)]

/-- The blocks taken tile the beginning of the buffer. -/
theorem ofBlocks_takeBlocks {n : Nat} {b : Bytes} (h : 16 * n ≤ b.length) :
    ofBlocks (takeBlocks n b) = b.take (16 * n) := by
  induction n generalizing b with
  | zero => simp [takeBlocks]
  | succ n ih =>
    have h16 : 16 ≤ b.length := by omega
    simp only [takeBlocks, h16, dif_pos, ofBlocks_cons]
    rw [ih (b := b.drop 16) (by simp; omega), Nat.mul_succ, Nat.add_comm, List.take_add]

@[simp] theorem toBlocks_length (b : Bytes) : (toBlocks b).length = b.length / 16 :=
  takeBlocks_length (by omega)

/-- The whole blocks of a buffer tile it up to the tail. -/
theorem ofBlocks_toBlocks (b : Bytes) : ofBlocks (toBlocks b) = b.take (16 * (b.length / 16)) :=
  ofBlocks_takeBlocks (by omega)

/-- The blocks of what a list of blocks tiles are that list, whatever tail follows. -/
theorem takeBlocks_ofBlocks (xs : List Bytes16) (tail : Bytes) : takeBlocks xs.length (ofBlocks xs ++ tail) = xs := by
  induction xs with
  | nil => rfl
  | cons x xs ih =>
    have hx := x.property
    rw [List.length_cons, takeBlocks, dif_pos (by simp [hx])]
    congr 1
    · exact Subtype.ext (by simp [hx])
    · simpa [hx] using ih

end Sys2Proof.Machine
end

