-- ==== Sys2Proof/Laws/State.lean ====
section
/-! SUPPORT. One lemma per field per update of the state, true by rfl. -/

namespace Sys2Proof.Machine

@[simp] theorem respond_cur (st : Status) (x : Bytes) (s : State) : (respond st x s).cur = s.cur := rfl

@[simp] theorem respond_inputs (st : Status) (x : Bytes) (s : State) : (respond st x s).inputs = s.inputs := rfl

@[simp] theorem respond_responses (st : Status) (x : Bytes) (s : State) :
    (respond st x s).responses = s.responses ++ [⟨st, x⟩] := rfl

@[simp] theorem installCursor_cur (k c : Bytes16) (s : State) : (installCursor k c s).cur = ⟨true, some k, some c⟩ := rfl

@[simp] theorem installCursor_inputs (k c : Bytes16) (s : State) : (installCursor k c s).inputs = s.inputs := rfl

@[simp] theorem installCursor_responses (k c : Bytes16) (s : State) :
    (installCursor k c s).responses = s.responses := rfl

@[simp] theorem writeCounter_valid (c : Bytes16) (s : State) : (writeCounter c s).cur.valid = s.cur.valid := rfl

@[simp] theorem writeCounter_key (c : Bytes16) (s : State) : (writeCounter c s).cur.key = s.cur.key := rfl

@[simp] theorem writeCounter_ctr (c : Bytes16) (s : State) : (writeCounter c s).cur.ctr = some c := rfl

@[simp] theorem writeCounter_inputs (c : Bytes16) (s : State) : (writeCounter c s).inputs = s.inputs := rfl

@[simp] theorem writeCounter_responses (c : Bytes16) (s : State) : (writeCounter c s).responses = s.responses := rfl

@[simp] theorem takeReset_cur (rest : List HostInput) : (takeReset rest).cur = ⟨false, none, none⟩ := rfl

@[simp] theorem takeReset_inputs (rest : List HostInput) : (takeReset rest).inputs = rest := rfl

@[simp] theorem takeReset_responses (rest : List HostInput) : (takeReset rest).responses = [] := rfl

@[simp] theorem presentFirst_cur (p : Bytes) (s : State) : (presentFirst p s).cur = s.cur := rfl

@[simp] theorem presentFirst_inputs (p : Bytes) (s : State) :
    (presentFirst p s).inputs = .command p :: s.inputs := rfl

@[simp] theorem presentFirst_responses (p : Bytes) (s : State) : (presentFirst p s).responses = s.responses := rfl

/-- A counter write that writes what is there changes nothing. -/
theorem writeCounter_self {s : State} {c : Bytes16} (h : s.cur.ctr = some c) : writeCounter c s = s := by
  obtain ⟨⟨v, k, c'⟩, i, r⟩ := s
  simp_all [writeCounter]

end Sys2Proof.Machine
end

