-- ==== Sys2Proof/Laws/Ops.lean ====
section
/-! SUPPORT. One lemma for each shared operation and each meaning that says once everything it can do; proofs cite these
instead of unfolding the operation. -/

namespace Sys2Proof.Machine

/-- All that `complete` does. -/
theorem complete_eq_next {x : Bytes} {s t : State} : complete x s = .next t ↔ t = respond .ok x s := by
  simp [complete, eq_comm]

/-- All that `raise` does. -/
theorem raise_eq_next {e : Status} {s t : State} : raise e s = .next t ↔ t = respond e [] s := by
  simp [raise, eq_comm]

/-- All that XTSH does: one of three errors or the decrypted header. -/
theorem execXtshWith_cases (p : Params) (key data : Bytes) (s : State) :
    (key.length ≠ 32 ∧ execXtshWith p key data s = .next (respond .invalidKeyLength [] s)) ∨
    (key.length = 32 ∧ data.length ≠ 3072 ∧
      execXtshWith p key data s = .next (respond .invalidBufferLength [] s)) ∨
    ∃ k : BytesN 32, k.val = key ∧ data.length = 3072 ∧
      ((slice (xtsFirstRegion p.cipher k data) 512 516 ≠ p.magic.val ∧
          execXtshWith p key data s = .next (respond .formatMismatch [] s)) ∨
        (slice (xtsFirstRegion p.cipher k data) 512 516 = p.magic.val ∧
          execXtshWith p key data s =
            .next (respond .ok (xtsFirstRegion p.cipher k data ++ xtsSecondRegion p.cipher k data) s))) := by
  unfold execXtshWith raise complete
  split <;> rename_i h
  · exact .inl ⟨asBytesN_eq_none.mp h, rfl⟩
  · rename_i k
    have hk := asBytesN_eq_some.mp h
    split
    · exact .inr (.inl ⟨hk ▸ k.property, ‹_›, rfl⟩)
    · refine .inr (.inr ⟨k, hk, not_not.mp ‹_›, ?_⟩)
      split
      · exact .inl ⟨‹_›, rfl⟩
      · exact .inr ⟨not_not.mp ‹_›, rfl⟩

/-- All that ECBD does: one of two errors or the decrypted block. -/
theorem execEcbdWith_cases (p : Params) (key block : Bytes) (s : State) :
    (key.length ≠ 16 ∧ execEcbdWith p key block s = .next (respond .invalidKeyLength [] s)) ∨
    (key.length = 16 ∧ block.length ≠ 16 ∧
      execEcbdWith p key block s = .next (respond .invalidBufferLength [] s)) ∨
    ∃ k x : Bytes16, k.val = key ∧ x.val = block ∧
      execEcbdWith p key block s = .next (respond .ok (p.cipher.D k x).val s) := by
  unfold execEcbdWith raise complete
  split <;> rename_i h
  · exact .inl ⟨asBytesN_eq_none.mp h, rfl⟩
  · rename_i k
    have hk := asBytesN_eq_some.mp h
    split <;> rename_i h2
    · exact .inr (.inl ⟨hk ▸ k.property, asBytesN_eq_none.mp h2, rfl⟩)
    · exact .inr (.inr ⟨k, _, hk, asBytesN_eq_some.mp h2, rfl⟩)

/-- All that CBCD does: one of two errors or the decrypted region. -/
theorem execCbcdWith_cases (p : Params) (key iv region : Bytes) (s : State) :
    (key.length ≠ 16 ∧ execCbcdWith p key iv region s = .next (respond .invalidKeyLength [] s)) ∨
    (key.length = 16 ∧ (iv.length ≠ 16 ∨ region.length ≠ 112) ∧
      execCbcdWith p key iv region s = .next (respond .invalidBufferLength [] s)) ∨
    ∃ k v : Bytes16, k.val = key ∧ v.val = iv ∧ region.length = 112 ∧
      execCbcdWith p key iv region s =
        .next (respond .ok (ofBlocks (cbcBlocks p.cipher k v (toBlocks region))) s) := by
  unfold execCbcdWith raise complete
  split <;> rename_i h
  · exact .inl ⟨asBytesN_eq_none.mp h, rfl⟩
  · rename_i k
    have hk := asBytesN_eq_some.mp h
    split <;> rename_i h2
    · exact .inr (.inl ⟨hk ▸ k.property, .inl (asBytesN_eq_none.mp h2), rfl⟩)
    · split
      · exact .inr (.inl ⟨hk ▸ k.property, .inr ‹_›, rfl⟩)
      · exact .inr (.inr ⟨k, _, hk, asBytesN_eq_some.mp h2, not_not.mp ‹_›, rfl⟩)

/-- All that CTRI does: one of two errors or a new cursor. -/
theorem execCtri_cases (key nonce : Bytes) (offset : ByteOffset) (s : State) :
    (key.length ≠ 16 ∧ execCtri key nonce offset s = .next (respond .invalidKeyLength [] s)) ∨
    (key.length = 16 ∧ nonce.length ≠ 8 ∧
      execCtri key nonce offset s = .next (respond .invalidBufferLength [] s)) ∨
    ∃ (k : Bytes16) (n : BytesN 8), k.val = key ∧ n.val = nonce ∧
      execCtri key nonce offset s = .next (respond .ok [] (installCursor k (initialCounter n offset) s)) := by
  unfold execCtri raise complete
  split <;> rename_i h
  · exact .inl ⟨asBytesN_eq_none.mp h, rfl⟩
  · rename_i k
    have hk := asBytesN_eq_some.mp h
    split <;> rename_i h2
    · exact .inr (.inl ⟨hk ▸ k.property, asBytesN_eq_none.mp h2, rfl⟩)
    · exact .inr (.inr ⟨k, _, hk, asBytesN_eq_some.mp h2, rfl⟩)

/-- All that CTRR does: one of two errors, the read, or the fault of an incoherent cursor. -/
theorem execCtrrWith_cases (p : Params) (offset : ByteOffset) (data : Bytes) (s : State) :
    (s.cur.valid = false ∧ execCtrrWith p offset data s = .next (respond .noCursor [] s)) ∨
    (s.cur.valid = true ∧ data.length % 16 ≠ 0 ∧ p.tailPolicy = .reject ∧
      execCtrrWith p offset data s = .next (respond .unsupportedOffsetAlignment [] s)) ∨
    (∃ key ctr, s.cur = ⟨true, some key, some ctr⟩ ∧ (data.length % 16 = 0 ∨ p.tailPolicy = .drop) ∧
      execCtrrWith p offset data s =
        .next (respond .ok
          (ofBlocks (ctrChunks p.cipher key offset 0 ctr (toBlocks data)).2 ++ data.drop (16 * (data.length / 16)))
          (writeCounter (ctrChunks p.cipher key offset 0 ctr (toBlocks data)).1 s))) ∨
    (s.cur.valid = true ∧ (s.cur.key = none ∨ s.cur.ctr = none) ∧
      execCtrrWith p offset data s = .fault .cursorIncoherent) := by
  obtain ⟨⟨v, k, c⟩, inp, res⟩ := s
  have hp : p.tailPolicy = .reject ∨ p.tailPolicy = .drop := by cases p.tailPolicy <;> simp
  unfold execCtrrWith raise readCursor complete
  cases v
  · exact .inl ⟨rfl, rfl⟩
  · by_cases ha : data.length % 16 ≠ 0 ∧ p.tailPolicy = .reject
    · exact .inr (.inl ⟨rfl, ha.1, ha.2, by simp [ha]⟩)
    · have hb : data.length % 16 = 0 ∨ p.tailPolicy = .drop := by
        rcases hp with h | h
        · exact .inl (by by_contra hc; exact ha ⟨hc, h⟩)
        · exact .inr h
      cases k with
      | none => exact .inr (.inr (.inr ⟨rfl, .inl rfl, by simp [ha]⟩))
      | some k =>
        cases c with
        | none => exact .inr (.inr (.inr ⟨rfl, .inr rfl, by simp [ha]⟩))
        | some c => exact .inr (.inr (.inl ⟨k, c, rfl, hb, by simp [ha]⟩))

/-- All that a packet does: the decoded command's execution, or `IllegalCommand`. -/
theorem runPacket_cases (ex : Instr → State → Host.Outcome State Fault Refusal) (p : Bytes) (s : State) :
    (∃ i, decode p = .ok i ∧ runPacket ex p s = ex i s) ∨
    (∃ e, decode p = .error e ∧ runPacket ex p s = .next (respond .illegalCommand [] s)) := by
  unfold runPacket raise
  split <;> rename_i x h
  · exact .inl ⟨x, h, rfl⟩
  · exact .inr ⟨x, h, rfl⟩

/-- All that a step does. -/
theorem stepVia_cases (ex : Instr → State → Host.Outcome State Fault Refusal) (s : State) :
    (s.inputs = [] ∧ stepVia ex s = .next s) ∨
    (∃ rest, s.inputs = .reset :: rest ∧ stepVia ex s = .next (takeReset rest)) ∨
    (∃ p rest, s.inputs = .command p :: rest ∧ stepVia ex s = runPacket ex p { s with inputs := rest }) := by
  unfold stepVia
  split <;> rename_i h
  · exact .inl ⟨h, rfl⟩
  · exact .inr (.inl ⟨_, h, rfl⟩)
  · exact .inr (.inr ⟨_, _, h, rfl⟩)

/-- A run of no steps. -/
theorem runFor_zero (s : State) : runFor 0 s = .next s := rfl

/-- A run of one step more, on any machine. -/
theorem core_run_succ (M : Host.Core) (n : Nat) (s : M.State) :
    M.run (n + 1) s = (match M.step s with
      | .next t => M.run n t
      | .fault r => .fault r
      | .refused r => .refused r) := by
  cases h : M.step s <;> simp only [Host.Core.run, h]

/-- A run of one step more. -/
theorem runFor_succ (n : Nat) (s : State) :
    runFor (n + 1) s = (match step s with
      | .next t => runFor n t
      | .fault r => .fault r
      | .refused r => .refused r) := by
  have h := core_run_succ Sys2Proof.core n s
  have hs : Sys2Proof.core.step s = step s := rfl
  unfold runFor
  rw [hs] at h
  refine h.trans ?_
  cases step s <;> rfl

end Sys2Proof.Machine
end

