-- ==== Sys2Proof/Laws/PerInstr.lean ====
section
/-! SUPPORT. The per-instruction family PacketShape: the opcode byte and the length of each command's packet (spec R55, R59,
R67). -/

namespace Sys2Proof.Laws

open Sys2Proof.Machine

/-- The length R59 gives the packet of a command: opcode, then 4 bytes and the operand for each byte string, 8 bytes for an
offset. -/
def packetLength : Instr → Nat
  | .xtsh key data => 1 + (4 + key.length) + (4 + data.length)
  | .ecbd key block => 1 + (4 + key.length) + (4 + block.length)
  | .cbcd key iv region => 1 + (4 + key.length) + (4 + iv.length) + (4 + region.length)
  | .ctri key nonce _ => 1 + (4 + key.length) + (4 + nonce.length) + 8
  | .ctrr _ data => 1 + 8 + (4 + data.length)

/-- The packet begins with the opcode, which is one of `01` to `05`, and has the length of its layout. -/
def PacketShape.Statement (i : Instr) : Prop :=
  (encode i).head? = some i.opcode ∧ 1 ≤ i.opcode.toNat ∧ i.opcode.toNat ≤ 5 ∧ (encode i).length = packetLength i

theorem PacketShape.xtsh (key data : Bytes) : PacketShape.Statement (.xtsh key data) := by
  refine ⟨rfl, by simp [Instr.opcode], by simp [Instr.opcode], ?_⟩
  simp [encode, encodeField, packetLength]
  omega

theorem PacketShape.ecbd (key block : Bytes) : PacketShape.Statement (.ecbd key block) := by
  refine ⟨rfl, by simp [Instr.opcode], by simp [Instr.opcode], ?_⟩
  simp [encode, encodeField, packetLength]
  omega

theorem PacketShape.cbcd (key iv region : Bytes) : PacketShape.Statement (.cbcd key iv region) := by
  refine ⟨rfl, by simp [Instr.opcode], by simp [Instr.opcode], ?_⟩
  simp [encode, encodeField, packetLength]
  omega

theorem PacketShape.ctri (key nonce : Bytes) (offset : ByteOffset) : PacketShape.Statement (.ctri key nonce offset) := by
  refine ⟨rfl, by simp [Instr.opcode], by simp [Instr.opcode], ?_⟩
  simp [encode, encodeField, encodeOffset, packetLength]
  omega

theorem PacketShape.ctrr (offset : ByteOffset) (data : Bytes) : PacketShape.Statement (.ctrr offset data) := by
  refine ⟨rfl, by simp [Instr.opcode], by simp [Instr.opcode], ?_⟩
  simp [encode, encodeField, encodeOffset, packetLength]
  omega

end Sys2Proof.Laws
end

