-- ==== Sys2Proof/Machine/Assembler.lean ====
section
/-! DEFINITION. The assembler notation of the spec's programs (R65, R66): mnemonics, operand names and status names, and
the line `MNEMONIC name=value ... -> STATUS_NAME payload` of a command and its response. It has "no semantic content"
(92_eei_decisions.md D23): nothing of the machine depends on it. Of the spellings R65 allows a byte string this writes the
plain hex string. -/

namespace Sys2Proof.Machine

/-- The mnemonic of a command (R55). -/
def mnemonic : Instr → String
  | .xtsh .. => "XTSH"
  | .ecbd .. => "ECBD"
  | .cbcd .. => "CBCD"
  | .ctri .. => "CTRI"
  | .ctrr .. => "CTRR"

/-- The source's own name of the operation, an alias of the mnemonic (R66). -/
def sourceName : Instr → String
  | .xtsh .. => "XTS header decrypt"
  | .ecbd .. => "ECB single-block decrypt"
  | .cbcd .. => "CBC region decrypt"
  | .ctri .. => "CTR cursor construct"
  | .ctrr .. => "CTR cursor read"

/-- The name of a status (R160). -/
def Status.name : Status → String
  | .ok => "OK"
  | .invalidKeyLength => "InvalidKeyLength"
  | .invalidBufferLength => "InvalidBufferLength"
  | .formatMismatch => "FormatMismatch"
  | .unsupportedOffsetAlignment => "UnsupportedOffsetAlignment"
  | .noCursor => "NoCursor"
  | .illegalCommand => "IllegalCommand"

/-- A hexadecimal digit, 0 to 15. -/
def hexDigit (n : Nat) : Char :=
  if n < 10 then Char.ofNat (48 + n) else Char.ofNat (87 + n)

/-- A byte string as hex, byte 0 first, two digits a byte (R9, R65). -/
def hexString (b : Bytes) : String :=
  String.ofList (b.flatMap fun d => [hexDigit (d.toNat / 16), hexDigit (d.toNat % 16)])

/-- The operands of a command, by name, in the order of the packet (R59, R65). -/
def operandWords : Instr → List String
  | .xtsh key data => ["key=" ++ hexString key, "data=" ++ hexString data]
  | .ecbd key block => ["key=" ++ hexString key, "block=" ++ hexString block]
  | .cbcd key iv region => ["key=" ++ hexString key, "iv=" ++ hexString iv, "region=" ++ hexString region]
  | .ctri key nonce offset =>
    ["key=" ++ hexString key, "nonce=" ++ hexString nonce, "offset=0x" ++ hexString (beBytes 8 offset.toNat)]
  | .ctrr offset data => ["offset=0x" ++ hexString (beBytes 8 offset.toNat), "data=" ++ hexString data]

/-- The assembler line of a command (R65). -/
def assemblyLine (i : Instr) : String := " ".intercalate (mnemonic i :: operandWords i)

/-- The expected response as a program writes it (R65). -/
def responseLine (r : Response) : String := r.status.name ++ " " ++ hexString r.payload

end Sys2Proof.Machine
end

