-- ==== Sys2Proof/Tests/Slice0.lean ====
section
/-! SUPPORT. Tests. The expected values of the decoder, primitive and command tests are the spec's: 30_encoding.md section 8,
the worked examples of 40_primitives.md, and the vectors of 95_test_vectors.md named in each comment. The last section holds
one witness for each statement that has hypotheses, or for each of its clauses. -/

namespace Sys2Proof.Tests

open Sys2Proof.Machine Sys2Proof.Claims

/-! ## Well-formedness: one ill-formed term for each check -/

/-- A byte string one byte too long for a `LEN32` field (R57). -/
def tooLong : Bytes := List.replicate (2 ^ 32) 0x00

theorem test_field_refused : fieldFits tooLong = false := by
  rw [fieldFits, tooLong, List.length_replicate]
  decide

theorem test_wf_xtsh_key : (Instr.xtsh tooLong []).wellFormed = false := by simp [Instr.wellFormed, test_field_refused]

theorem test_wf_xtsh_data : (Instr.xtsh [] tooLong).wellFormed = false := by simp [Instr.wellFormed, test_field_refused]

theorem test_wf_ecbd_key : (Instr.ecbd tooLong []).wellFormed = false := by simp [Instr.wellFormed, test_field_refused]

theorem test_wf_ecbd_block : (Instr.ecbd [] tooLong).wellFormed = false := by simp [Instr.wellFormed, test_field_refused]

theorem test_wf_cbcd_key : (Instr.cbcd tooLong [] []).wellFormed = false := by
  simp [Instr.wellFormed, test_field_refused]

theorem test_wf_cbcd_iv : (Instr.cbcd [] tooLong []).wellFormed = false := by
  simp [Instr.wellFormed, test_field_refused]

theorem test_wf_cbcd_region : (Instr.cbcd [] [] tooLong).wellFormed = false := by
  simp [Instr.wellFormed, test_field_refused]

theorem test_wf_ctri_key : (Instr.ctri tooLong [] 0).wellFormed = false := by simp [Instr.wellFormed, test_field_refused]

theorem test_wf_ctri_nonce : (Instr.ctri [] tooLong 0).wellFormed = false := by
  simp [Instr.wellFormed, test_field_refused]

theorem test_wf_ctrr_data : (Instr.ctrr 0 tooLong).wellFormed = false := by simp [Instr.wellFormed, test_field_refused]

/-- A wrong operand size is well-formed framing (R59, R68). -/
theorem test_wf_wrong_sizes : (Instr.cbcd [0x01] [] [0x02]).wellFormed = true := by decide

/-! ## Decoding: packets written out from the layouts of R59 -/

/-- `K16` of 95_test_vectors.md. -/
def k16 : Bytes := [0x00, 0x01, 0x02, 0x03, 0x04, 0x05, 0x06, 0x07, 0x08, 0x09, 0x0a, 0x0b, 0x0c, 0x0d, 0x0e, 0x0f]

/-- XTSH, `01 ‖ LEN32 KEY ‖ LEN32 DATA`, with a 2-byte key and a 3-byte data operand. -/
theorem test_decode_xtsh :
    decode [0x01, 0x00, 0x00, 0x00, 0x02, 0xaa, 0xbb, 0x00, 0x00, 0x00, 0x03, 0x11, 0x22, 0x33] =
      .ok (.xtsh [0xaa, 0xbb] [0x11, 0x22, 0x33]) := by decide

/-- ECBD: 30_encoding.md section 8, first packet. -/
theorem test_decode_ecbd :
    decode ([0x02, 0x00, 0x00, 0x00, 0x10] ++ k16 ++ [0x00, 0x00, 0x00, 0x10, 0x69, 0xc4, 0xe0, 0xd8, 0x6a, 0x7b, 0x04,
      0x30, 0xd8, 0xcd, 0xb7, 0x80, 0x70, 0xb4, 0xc5, 0x5a]) =
      .ok (.ecbd k16 [0x69, 0xc4, 0xe0, 0xd8, 0x6a, 0x7b, 0x04, 0x30, 0xd8, 0xcd, 0xb7, 0x80, 0x70, 0xb4, 0xc5, 0x5a]) := by
  decide +kernel

/-- CBCD, `03 ‖ LEN32 KEY ‖ LEN32 IV ‖ LEN32 DATA`. -/
theorem test_decode_cbcd :
    decode [0x03, 0x00, 0x00, 0x00, 0x01, 0xaa, 0x00, 0x00, 0x00, 0x02, 0xbb, 0xcc, 0x00, 0x00, 0x00, 0x01, 0xdd] =
      .ok (.cbcd [0xaa] [0xbb, 0xcc] [0xdd]) := by decide

/-- CTRI: 30_encoding.md section 8, second packet. -/
theorem test_decode_ctri :
    decode ([0x04, 0x00, 0x00, 0x00, 0x10] ++ k16 ++ [0x00, 0x00, 0x00, 0x08, 0xa0, 0xa1, 0xa2, 0xa3, 0xa4, 0xa5, 0xa6,
      0xa7, 0x00, 0x00, 0x00, 0x00, 0x00, 0x00, 0x12, 0x30]) =
      .ok (.ctri k16 [0xa0, 0xa1, 0xa2, 0xa3, 0xa4, 0xa5, 0xa6, 0xa7] 0x1230) := by decide +kernel

/-- CTRR, `05 ‖ OFFSET ‖ LEN32 DATA`; the offset is big-endian. -/
theorem test_decode_ctrr :
    decode [0x05, 0x01, 0x02, 0x03, 0x04, 0x05, 0x06, 0x07, 0x08, 0x00, 0x00, 0x00, 0x02, 0xaa, 0xbb] =
      .ok (.ctrr 0x0102030405060708 [0xaa, 0xbb]) := by decide

/-- A `LEN32` is big-endian: `00 00 01 00` announces 256 bytes. -/
theorem test_decode_len32_big_endian :
    decode ([0x05, 0, 0, 0, 0, 0, 0, 0, 0, 0x00, 0x00, 0x01, 0x00] ++ List.replicate 256 0x5a) =
      .ok (.ctrr 0 (List.replicate 256 0x5a)) := by decide +kernel

/-- V-DEC-1: reserved opcode `06`. -/
theorem test_decode_reserved : decode [0x06] = .error .reservedOpcode := by decide

/-- V-DEC-1: the key announces 2^32 - 1 bytes and 1 is present. -/
theorem test_decode_truncated : decode [0x01, 0xff, 0xff, 0xff, 0xff, 0x00] = .error .truncated := by decide

/-- V-DEC-1: one byte after a complete packet (here the empty ECBD of V-DEC-2). -/
theorem test_decode_trailing :
    decode [0x02, 0x00, 0x00, 0x00, 0x00, 0x00, 0x00, 0x00, 0x00, 0x00] = .error .trailingBytes := by decide

/-- The opcode table's row of CTRI: `04` under mask `FF`, the fields above it zero. -/
theorem test_table_word_ctri : decodeTableWord 8 4 = some (.ctri [] [] 0) := by decide

/-- A table word whose opcode no row has. -/
theorem test_table_word_reserved : decodeTableWord 8 6 = none := by decide

/-! ## Primitives: the worked examples of 40_primitives.md -/

/-- R82. -/
theorem test_tweak : tweak 0x0123456789abcdef = beN 16 0x00000000000000000123456789abcdef := by decide +kernel

/-- R84, the last worked example (carries between bytes). -/
theorem test_mulAlpha_carries :
    mulAlpha (beN 16 0x0123456789abcdeffedcba9876543210) = beN 16 0x02468ace12579bdffdb97531eda86420 := by decide +kernel

/-- R84: the feedback lands in byte 0. -/
theorem test_mulAlpha_feedback :
    mulAlpha (beN 16 0x000000000000000000000000000000c0) = beN 16 0x87000000000000000000000000000080 := by decide +kernel

/-- R88: the top byte of the block number is not written. -/
theorem test_suffix56 : suffix56 0x123456789abcdef0 = beN 7 0x23456789abcdef := by decide +kernel

/-- V-XTS-1, sector 1, block 0 under TOY128. -/
theorem test_xts_block_toy :
    xtsSectorDec toy128 (beN 16 0x00112233445566778899aabbccddeeff) (beN 16 0x0f0e0d0c0b0a09080706050403020100) 1
      [beN 16 0xffeeddccbbaa99887766554433221100, beN 16 0] =
      [beN 16 0xffc1a38167412300e0c0a08060402003, beN 16 0x0016edfcc7aab9888b7e55443f221101] := by decide +kernel

/-- V-XTS-5 and R105: bytes [512,528) of `@HDR_CT_AES` under `K32`, decrypted in sector 1, begin with the magic. -/
theorem test_xts_block_aes :
    xtsSectorDec aes128 (beN 16 0x000102030405060708090a0b0c0d0e0f) (beN 16 0x101112131415161718191a1b1c1d1e1f) 1
      [beN 16 0xeee64b1ab9c1d595ab9549a956d10cb8] = [beN 16 0x4e4341333643505d6a7784919eabb8c5] := by decide +kernel

/-- R146: the published column of `MixColumns`. -/
theorem test_aes_mixColumn : aesMixColumn 0xdb 0x13 0x53 0x45 = [0x8e, 0x4d, 0xa1, 0xbc] := by decide +kernel

/-- R145: the last round key. -/
theorem test_aes_roundKey :
    aesRoundKey (beN 16 0x2b7e151628aed2a6abf7158809cf4f3c) 10 = beN 16 0xd014f9a8c9ee2589e13f0cc8b6630ca6 := by
  decide +kernel

/-- R150: the borrow runs through all 16 bytes. -/
theorem test_toy_borrow :
    toy128.D (beN 16 1) (beN 16 0) = beN 16 0xffffffffffffffffffffffffffffffff := by decide +kernel

/-! ## Commands: one step each, on small states -/

/-- A state with the given counter prefix, suffix and key. -/
def withCursor (key ctr : Nat) : State := installCursor (beN 16 key) (beN 16 ctr) State.reset

/-- The answer of an outcome, if it went on: the last response. -/
def lastAnswer : Host.Outcome State Fault Refusal → Option Response
  | .next t => t.responses.getLast?
  | _ => none

/-- The counter block an outcome leaves. -/
def counterAfter : Host.Outcome State Fault Refusal → Option Bytes16
  | .next t => t.cur.ctr
  | _ => none

/-- V-ECB-1, row 1, AES-128. -/
theorem test_ecbd_aes :
    lastAnswer (execWith aesParams (.ecbd k16 (beBytes 16 0x69c4e0d86a7b0430d8cdb78070b4c55a)) State.reset) =
      some ⟨.ok, beBytes 16 0x00112233445566778899aabbccddeeff⟩ := by decide +kernel

/-- V-ECB-2: a 17-byte key. -/
theorem test_ecbd_long_key :
    exec (.ecbd (List.replicate 17 0x00) (List.replicate 16 0x00)) State.reset =
      .next { State.reset with responses := [⟨.invalidKeyLength, []⟩] } := rfl

/-- V-CBC-2: `P_0` and `P_1` under TOY128. -/
theorem test_cbcd_toy :
    (lastAnswer (execWith toyParams (.cbcd k16 (beBytes 16 0xf0f1f2f3f4f5f6f7f8f9fafbfcfdfeff)
      ((List.range 112).map fun i => BitVec.ofNat 8 (0x10 + i))) State.reset)).map (fun r => r.payload.take 32) =
      some (beBytes 16 0xe0e1e2e3e4e5e6e7e8e9eaebecedeeef ++ beBytes 16 0x303132333435363738393a3b3c3d3e3f) := by
  decide +kernel

/-- V-CBC-9: a 96-byte region is refused although a multiple of 16. -/
theorem test_cbcd_short_region :
    lastAnswer (exec (.cbcd k16 k16 (List.replicate 96 0x00)) State.reset) = some ⟨.invalidBufferLength, []⟩ := by
  decide +kernel

/-- V-CTR-1, second construction. -/
theorem test_ctri_counter :
    counterAfter (exec (.ctri k16 (beBytes 8 0xa0a1a2a3a4a5a6a7) 0xdeadbeef0) State.reset) =
      some (beN 16 0xa0a1a2a3a4a5a6a700000000deadbeef) := by decide +kernel

/-- V-CTR-11: a 7-byte nonce. -/
theorem test_ctri_short_nonce :
    lastAnswer (exec (.ctri k16 (beBytes 7 0) 0) State.reset) = some ⟨.invalidBufferLength, []⟩ := by decide +kernel

/-- V-CTR-7 under TOY128: the offset wraps at 2^64 and the block number at 2^56. -/
theorem test_ctrr_wrap :
    lastAnswer (execWith toyParams (.ctrr 0xfffffffffffffff0 (List.replicate 32 0x00))
      (withCursor 0x000102030405060708090a0b0c0d0e0f 0xa0a1a2a3a4a5a6a70000000000000000)) =
      some ⟨.ok, beBytes 16 0xa0a2a4a6a8aaacae09090a0b0c0d0e0e ++ beBytes 16 0xa0a2a4a6a8aaacae08090a0b0c0d0e0f⟩ := by
  decide +kernel

/-- V-CTR-8, policy `drop`: 20 bytes, one chunk read, the tail `50515253` as it came. -/
theorem test_ctrr_drop :
    lastAnswer (execWith { toyParams with tailPolicy := .drop }
      (.ctrr 0 ((List.range 20).map fun i => BitVec.ofNat 8 (0x40 + i)))
      (withCursor 0x000102030405060708090a0b0c0d0e0f 0xa0a1a2a3a4a5a6a70000000000000007)) =
      some ⟨.ok, beBytes 16 0xe0e3e6e5ecefeae94040404040404040 ++ [0x50, 0x51, 0x52, 0x53]⟩ := by decide +kernel

/-- V-XTS-9 under TOY128 with `MAGIC` = `00000000`: the all-zero header decrypts to itself. -/
theorem test_xtsh_zero_header :
    lastAnswer (execWith { toyParams with magic := beN 4 0 } (.xtsh (List.replicate 32 0x00) (List.replicate 3072 0x00))
      State.reset) = some ⟨.ok, List.replicate 3072 0x00⟩ := by decide +kernel

/-- V-XTS-9 under TOY128 with the recommended magic: `FormatMismatch`, empty payload. -/
theorem test_xtsh_mismatch :
    lastAnswer (execWith toyParams (.xtsh (List.replicate 32 0x00) (List.replicate 3072 0x00)) State.reset) =
      some ⟨.formatMismatch, []⟩ := by decide +kernel

/-! ## Steps -/

/-- P4 step 7: the packet `07` gets the response `06 00000000`. -/
theorem test_step_illegal :
    (match step (presentFirst [0x07] State.reset) with
      | .next t => t.output
      | _ => []) = [[0x06, 0x00, 0x00, 0x00, 0x00]] := by decide

/-- V-DEC-2: the CTRR with empty data after reset gets `05 00000000`. -/
theorem test_step_noCursor :
    (match step (State.reset.withFetchWord 8 5) with
      | .next t => t.output
      | _ => []) = [[0x05, 0x00, 0x00, 0x00, 0x00]] := by decide

/-- R19: a reset takes the cursor away. -/
theorem test_step_reset :
    step { withCursor 1 2 with inputs := [.reset, .reset], responses := [⟨.ok, []⟩] } =
      .next { State.reset with inputs := [.reset] } := rfl

/-- R65: a line of the notation. -/
theorem test_assembly_line : assemblyLine (.ctrr 0x1230 [0x0a, 0xff]) = "CTRR offset=0x0000000000001230 data=0aff" := by
  decide +kernel

/-! ## Witnesses: a concrete state and operands that meet the hypotheses of each statement -/

/-- A coherent state with a cursor. -/
def live : State := withCursor 1 2

/-- A packet: CTRR at offset 0 with no data. -/
def emptyRead : Bytes := [0x05, 0, 0, 0, 0, 0, 0, 0, 0, 0, 0, 0, 0]

theorem witness_StepRunsDecodedCommand :
    (presentFirst emptyRead live).inputs = .command emptyRead :: [] ∧ decode emptyRead = .ok (.ctrr 0 []) ∧
      (Instr.ctrr 0 []).wellFormed = true := by decide

theorem witness_IllegalPacketExactlyWhen :
    (∀ i, decode [0x07] ≠ .ok i) ∧ (presentFirst [0x07] live).inputs = .command [0x07] :: [] :=
  ⟨(fun _ h => nomatch h), rfl⟩

theorem witness_IllegalPacketExactlyWhen_cases :
    decode [] = .error .emptyPacket ∧ decode [0x00] = .error .reservedOpcode ∧ decode [0x06] = .error .reservedOpcode ∧
      decode [0x01] = .error .truncated ∧ decode (emptyRead ++ [0x00]) = .error .trailingBytes := by decide

theorem witness_DecodeOfEncodeIsTheCommand : (Instr.ecbd k16 k16).wellFormed = true := by decide

theorem witness_EncodeOfDecodeIsThePacket : decode emptyRead = .ok (.ctrr 0 []) := by decide

theorem witness_ResponseBytesDetermineResponse :
    let r : Response := ⟨.ok, [0x01]⟩
    r.payload.length < 2 ^ 32 ∧ r.encode = (⟨.ok, [0x01]⟩ : Response).encode := by decide

/-- A slice that holds exactly what stands in the middle. -/
theorem slice_middle (a m b : Bytes) : slice (a ++ m ++ b) a.length (a.length + m.length) = m := by simp [slice]

/-- The length of three parts, two of them zeros. -/
theorem length_padded (i j : Nat) (m : Bytes) :
    (List.replicate i (0x00 : Byte) ++ m ++ List.replicate j 0x00).length = i + m.length + j := by
  rw [List.length_append, List.length_append, List.length_replicate, List.length_replicate]

/-- A header whose block 32 decrypts to any block one likes under any keys. -/
theorem header_showing (k1 k2 q : Bytes16) :
    ∃ (data : Bytes) (m : Bytes16), data.length = 3072 ∧ m.val = blockAt data 32 ∧
      headerBlockDec Config.cipher k1 k2 32 m = q := by
  let t := Config.cipher.E k2 (tweak 1)
  let m := xorBlock (Config.cipher.E k1 (xorBlock q t)) t
  refine ⟨List.replicate 512 0x00 ++ m.val ++ List.replicate 2544 0x00, m, ?_, ?_, ?_⟩
  · rw [length_padded, m.property]
  · have hs := slice_middle (List.replicate 512 0x00) m.val (List.replicate 2544 0x00)
    rw [List.length_replicate, m.property] at hs
    exact hs.symm
  · have h : headerBlockDec Config.cipher k1 k2 32 m = xorBlock (Config.cipher.D k1 (xorBlock m t)) t := rfl
    rw [h, xorBlock_cancel]
    simp [Config.cipher]

/-- A block that begins with four given bytes. -/
def beginning (b : BytesN 4) : Bytes16 := ⟨b.val ++ List.replicate 12 0x00, by simp [b.property]⟩

theorem witness_XtshAnswersByItsAlgorithm_ok :
    ∃ (k1 k2 m : Bytes16) (data : Bytes), data.length = 3072 ∧ m.val = blockAt data 32 ∧
      (headerBlockDec Config.cipher k1 k2 32 m).val.take 4 = Config.magic.val := by
  obtain ⟨data, m, hl, hm, hq⟩ := header_showing (beN 16 0) (beN 16 0) (beginning Config.magic)
  exact ⟨_, _, m, data, hl, hm, by rw [hq]; rfl⟩

theorem witness_XtshAnswersByItsAlgorithm_mismatch :
    ∃ (k1 k2 m : Bytes16) (data : Bytes), data.length = 3072 ∧ m.val = blockAt data 32 ∧
      (headerBlockDec Config.cipher k1 k2 32 m).val.take 4 ≠ Config.magic.val := by
  by_cases h : Config.magic.val = (beN 4 0).val
  · obtain ⟨data, m, hl, hm, hq⟩ := header_showing (beN 16 0) (beN 16 0) (beginning (beN 4 1))
    exact ⟨_, _, m, data, hl, hm, by rw [hq, h]; decide⟩
  · obtain ⟨data, m, hl, hm, hq⟩ := header_showing (beN 16 0) (beN 16 0) (beginning (beN 4 0))
    exact ⟨_, _, m, data, hl, hm, by rw [hq]; exact fun e => h (e.symm.trans (by decide))⟩

/-- One byte too short and one too long, for each size check of XTSH. -/
theorem witness_XtshAnswersByItsAlgorithm_sizes :
    (List.replicate 31 (0x00 : Byte)).length ≠ 32 ∧ (List.replicate 33 (0x00 : Byte)).length ≠ 32 ∧
      (List.replicate 32 (0x00 : Byte)).length = 32 ∧ (List.replicate 3071 (0x00 : Byte)).length ≠ 3072 ∧
      (List.replicate 3073 (0x00 : Byte)).length ≠ 3072 := by
  simp only [List.length_replicate]
  decide

theorem witness_XtshUndoesTheReferenceEncryptor :
    ∃ plain : Bytes, plain.length = 3072 ∧ slice plain 512 516 = Config.magic.val :=
  ⟨List.replicate 512 0x00 ++ Config.magic.val ++ List.replicate 2556 0x00, length_padded 512 2556 Config.magic.val, by
    have hs := slice_middle (List.replicate 512 0x00) Config.magic.val (List.replicate 2556 0x00)
    rw [List.length_replicate, Config.magic.property] at hs
    exact hs⟩

theorem witness_AreaCallAdvancesTheSectorIndex :
    (List.replicate 512 (0x00 : Byte)).length = 512 * 1 ∧ (List.replicate 1024 (0x00 : Byte)).length = 512 * 2 := by
  simp only [List.length_replicate]
  decide

theorem witness_EcbdAnswersByItsAlgorithm :
    (List.replicate 15 (0x00 : Byte)).length ≠ 16 ∧ k16.length = 16 ∧ (List.replicate 17 (0x00 : Byte)).length ≠ 16 := by
  decide

theorem witness_CbcdAnswersByItsAlgorithm :
    (List.replicate 15 (0x00 : Byte)).length ≠ 16 ∧ k16.length = 16 ∧ (List.replicate 111 (0x00 : Byte)).length ≠ 112 ∧
      (List.replicate 112 (0x00 : Byte)).length = 112 := by
  decide

/-- The block clause of CBCD at its two ends: the first block, chained to the IV, and the last. -/
theorem witness_CbcdAnswersByItsAlgorithm_blocks :
    let region : Bytes := (List.range 112).map (BitVec.ofNat 8 ·)
    region.length = 112 ∧ (beN 16 0x000102030405060708090a0b0c0d0e0f).val = blockAt region 0 ∧
      (beN 16 0x606162636465666768696a6b6c6d6e6f).val = blockAt region 6 ∧
      (beN 16 0x505152535455565758595a5b5c5d5e5f).val = blockAt region 5 := by
  decide +kernel

theorem witness_CbcdErrorPropagation :
    let r1 : Bytes := List.replicate 112 0x00
    let r2 : Bytes := List.replicate 111 0x00 ++ [0x01]
    r1.length = 112 ∧ r2.length = 112 ∧ (∀ j, j < 7 → j ≠ 6 → blockAt r1 j = blockAt r2 j) ∧
      blockAt r1 6 ≠ blockAt r2 6 := by
  decide +kernel

theorem witness_CbcdUndoesTheReferenceEncryptor : ∃ plain : Bytes, plain.length = 112 :=
  ⟨List.replicate 112 0x00, by simp⟩

theorem witness_CtriAnswersByItsAlgorithm :
    (List.replicate 15 (0x00 : Byte)).length ≠ 16 ∧ k16.length = 16 ∧ (List.replicate 7 (0x00 : Byte)).length ≠ 8 ∧
      (beBytes 8 0xa0a1a2a3a4a5a6a7).length = 8 ∧
      (beN 16 0xa0a1a2a3a4a5a6a700ffffffffffffff).val =
        beBytes 8 0xa0a1a2a3a4a5a6a7 ++ [0x00] ++ beBytes 7 ((0xffffffffffffffff : ByteOffset).toNat / 16 % 2 ^ 56) := by
  decide +kernel

theorem witness_CtriOffsetIsUnobservable :
    ∃ s1 s2 t1, exec (.ctri k16 (beBytes 8 0) 0) live = .next s1 ∧ exec (.ctri k16 (beBytes 8 0) 16) live = .next s2 ∧
      runFor 1 s1 = .next t1 := ⟨_, _, _, rfl, rfl, rfl⟩

theorem witness_CtrrAnswersByItsAlgorithm :
    State.reset.cur.valid = false ∧ live.cur.valid = true ∧ (List.replicate 17 (0x00 : Byte)).length % 16 ≠ 0 ∧
      live.cur = ⟨true, some (beN 16 1), some (beN 16 2)⟩ ∧ (List.replicate 32 (0x00 : Byte)).length % 16 = 0 := by
  decide +kernel

/-- The chunk clause of CTRR at its two ends, at the wrap of the offset. -/
theorem witness_CtrrAnswersByItsAlgorithm_chunks :
    (beN 16 0x00ffffffffffffff).val = (beN 16 2).val.take 9 ++ chunkSuffix 0xfffffffffffffff0 0 ∧
      (beN 16 0).val = (beN 16 2).val.take 9 ++ chunkSuffix 0xfffffffffffffff0 1 := by
  decide +kernel

theorem witness_CtrrLeavesTheLastSuffix :
    ∃ t, execWith { toyParams with tailPolicy := .drop } (.ctrr 0 (List.replicate 20 0x00)) live = .next t := ⟨_, rfl⟩

theorem witness_TailPolicies :
    live.cur = ⟨true, some (beN 16 1), some (beN 16 2)⟩ ∧ (List.replicate 20 (0x00 : Byte)).length % 16 ≠ 0 ∧
      (List.replicate 15 (0x00 : Byte)).length % 16 ≠ 0 ∧ toyParams.tailPolicy = .reject ∧
      ({ toyParams with tailPolicy := .drop } : Params).tailPolicy = .drop := by
  decide +kernel

theorem witness_CtrrIsItsOwnInverse :
    ∃ t payload, exec (.ctrr 0 (List.replicate 16 0x00)) live = .next t ∧
      t.responses = live.responses ++ [⟨.ok, payload⟩] := ⟨_, _, rfl, rfl⟩

theorem witness_CtrrReadsCompose :
    live.cur = ⟨true, some (beN 16 1), some (beN 16 2)⟩ ∧ (List.replicate 16 (0x00 : Byte)).length % 16 = 0 ∧
      (List.replicate 32 (0x00 : Byte)).length % 16 = 0 := by
  decide +kernel

theorem witness_CtrrDependsOnKeyAndPrefixOnly :
    ∃ u, live.cur.valid = (withCursor 1 3).cur.valid ∧ live.cur.key = (withCursor 1 3).cur.key ∧
      counterPrefix live = counterPrefix (withCursor 1 3) ∧ exec (.ctrr 0 (List.replicate 16 0x00)) live = .next u :=
  ⟨_, by decide +kernel, by decide +kernel, by decide +kernel, rfl⟩

theorem witness_CtrrIsIndependentOfHistory :
    ∃ t u, (∀ key nonce o, .ctri key nonce o ∉ [Instr.ctrr 32 (List.replicate 16 0x00), .ecbd k16 k16]) ∧
      execAll [.ctrr 32 (List.replicate 16 0x00), .ecbd k16 k16] live = .next t ∧
      exec (.ctrr 0 (List.replicate 16 0x00)) live = .next u :=
  ⟨_, _, by simp, rfl, rfl⟩

theorem witness_FirstErrorInOrderIsReported :
    CursorCoherent (presentFirst emptyRead live) ∧ (presentFirst emptyRead live).inputs = .command emptyRead :: [] := by
  decide

theorem witness_OneListedResponsePerCommand : ∃ t, exec (.ecbd k16 k16) live = .next t := ⟨_, rfl⟩

theorem witness_ErrorsHaveNoEffect :
    ∃ t, exec (.ecbd [] []) live = .next t ∧ t.responses = live.responses ++ [⟨.invalidKeyLength, []⟩] ∧
      Status.invalidKeyLength ≠ .ok := ⟨_, rfl, rfl, by decide⟩

theorem witness_ErrorsAreNotSticky :
    ∃ t u, exec (.ctrr 0 [0x00]) live = .next t ∧
      t.responses = live.responses ++ [⟨.unsupportedOffsetAlignment, []⟩] ∧
      exec (.ctrr 0 (List.replicate 16 0x00)) live = .next u := ⟨_, _, rfl, rfl, rfl⟩

theorem witness_StepKeepsCursorCoherent :
    ∃ t, CursorCoherent (presentFirst [0x07] live) ∧ step (presentFirst [0x07] live) = .next t :=
  ⟨_, by decide, rfl⟩

theorem witness_CoherentStatesAreSafe : CursorCoherent live := by decide

theorem witness_ResetEventLeavesTheResetState :
    ({ live with inputs := [.reset, .reset] } : State).inputs = .reset :: [.reset] := rfl

theorem witness_IdleStepChangesNothing : live.inputs = [] := rfl

theorem witness_ResponsesComeInOrder : CursorCoherent live ∧ [emptyRead, [0x07]].length = 2 := by decide

theorem witness_OnlyCursorCommandsWriteTheCursor :
    ∃ t, step (presentFirst [0x05, 0, 0, 0, 0] live) = .next t := ⟨_, rfl⟩

theorem witness_CounterLowIsNeverObservable :
    ∃ s1, SameButCounterLow live (withCursor 1 3) ∧ runFor 3 live = .next s1 :=
  ⟨_, ⟨by decide +kernel, by decide +kernel, by decide +kernel, by decide +kernel, by decide +kernel⟩, rfl⟩

end Sys2Proof.Tests
end

section
/-! SUPPORT. The machine is the configured machine at its own parameters (spec R6, R20), so that what is proved of
`execWith p` and `stepWith p` for every `p` speaks of `exec` and `step`. -/

namespace Sys2Proof.Machine

/-- The five commands, one by one: each meaning on this machine is the meaning over any parameters at `Config.params`, and
CTRI uses no parameter (R121). -/
theorem exec_eq_execWith (i : Instr) (s : State) : exec i s = execWith Config.params i s := by
  cases i with
  | xtsh key data => rfl
  | ecbd key block => rfl
  | cbcd key iv region => rfl
  | ctri key nonce offset => rfl
  | ctrr offset data => rfl

/-- A step depends on the parameters through the execution of a command alone. -/
theorem step_eq_stepWith (s : State) : step s = stepWith Config.params s := by
  have hexec : exec = execWith Config.params := funext₂ exec_eq_execWith
  rw [step, stepWith, hexec]

/-- Settles O42: the commands by cases, the step through `stepVia` over equal executions. -/
theorem machineIsTheConfiguredMachine : Obligations.MachineIsTheConfiguredMachine :=
  ⟨exec_eq_execWith, step_eq_stepWith⟩

end Sys2Proof.Machine
end

section
/-! SUPPORT. What a step and a command can do, said once: the steps by the next input, the commands by what they write of
`CUR` (spec R12), and the chunk loop of CTRR by the bytes of the counter block it reads (R125, R130). -/

namespace Sys2Proof.Machine

/-! ### The step -/

/-- A packet that decodes is executed (R14, R20). -/
theorem step_of_decode_ok {s : State} {p : Bytes} {rest : List HostInput} {i : Instr}
    (hin : s.inputs = .command p :: rest) (hdec : decode p = .ok i) : step s = exec i { s with inputs := rest } := by
  simp only [step, stepVia, hin, runPacket, hdec]

/-- A packet that does not decode is answered `IllegalCommand` (R61, R165). -/
theorem step_of_decode_error {s : State} {p : Bytes} {rest : List HostInput} {e : DecodeError}
    (hin : s.inputs = .command p :: rest) (hdec : decode p = .error e) :
    step s = .next (respond .illegalCommand [] { s with inputs := rest }) := by
  simp only [step, stepVia, hin, runPacket, hdec, raise]

/-- The reset event (R19, R191). -/
theorem step_of_reset {s : State} {rest : List HostInput} (hin : s.inputs = .reset :: rest) :
    step s = .next (takeReset rest) := by
  simp only [step, stepVia, hin]

/-- Nothing presented (R198). -/
theorem step_of_idle {s : State} (hin : s.inputs = []) : step s = .next s := by
  simp only [step, stepVia, hin]

/-- The four kinds of step, by what the host does next. -/
theorem inputs_cases (s : State) :
    s.inputs = [] ∨ (∃ rest, s.inputs = .reset :: rest) ∨
    (∃ p rest i, s.inputs = .command p :: rest ∧ decode p = .ok i) ∨
    (∃ p rest e, s.inputs = .command p :: rest ∧ decode p = .error e) := by
  match hin : s.inputs with
  | [] => exact .inl rfl
  | .reset :: rest => exact .inr (.inl ⟨rest, rfl⟩)
  | .command p :: rest =>
    cases hdec : decode p with
    | ok i => exact .inr (.inr (.inl ⟨p, rest, i, rfl, hdec⟩))
    | error e => exact .inr (.inr (.inr ⟨p, rest, e, rfl, hdec⟩))

/-! ### The counter block -/

@[simp] theorem counterPrefix_respond (st : Status) (x : Bytes) (s : State) :
    counterPrefix (respond st x s) = counterPrefix s := rfl

@[simp] theorem counterPrefix_installCursor (k c : Bytes16) (s : State) :
    counterPrefix (installCursor k c s) = some (c.val.take 9) := rfl

@[simp] theorem counterPrefix_writeCounter (c : Bytes16) (s : State) :
    counterPrefix (writeCounter c s) = some (c.val.take 9) := rfl

/-- Bytes 0 to 8 of the counter block are a part of `CUR`. -/
theorem counterPrefix_of_cur_eq {s t : State} (h : s.cur = t.cur) : counterPrefix s = counterPrefix t := by
  rw [counterPrefix, counterPrefix, h]

/-- Bytes 0 to 8 of a counter block that is there. -/
theorem counterPrefix_of_cur {s : State} {v : Bool} {key : Option Bytes16} {ctr : Bytes16}
    (h : s.cur = ⟨v, key, some ctr⟩) : counterPrefix s = some (ctr.val.take 9) := by
  rw [counterPrefix, h, Option.map_some]

/-- Bytes 0 to 8 are not written (R125). -/
theorem setCounterLow_take (ctr : Bytes16) (o : ByteOffset) : (setCounterLow ctr o).val.take 9 = ctr.val.take 9 := by
  simp [setCounterLow, ctr.property]

/-- Bytes 9 to 15 are written without being read (R125). -/
theorem setCounterLow_congr {c1 c2 : Bytes16} (h : c1.val.take 9 = c2.val.take 9) (o : ByteOffset) :
    setCounterLow c1 o = setCounterLow c2 o :=
  Subtype.ext (congrArg (· ++ (suffix56 o).val) h)

/-- The chunk loop writes bytes 9 to 15 alone (R125, R132). -/
theorem ctrChunks_take (c : BlockCipher) (key : Bytes16) (o : ByteOffset) (i : Nat) (ctr : Bytes16)
    (xs : List Bytes16) : (ctrChunks c key o i ctr xs).1.val.take 9 = ctr.val.take 9 := by
  induction xs generalizing i ctr with
  | nil => rfl
  | cons x xs ih => exact (ih (i + 1) _).trans (setCounterLow_take ctr _)

/-- The plaintext of the chunks depends on bytes 0 to 8 of the counter block alone (R130): the first chunk writes the
others. -/
theorem ctrChunks_plaintext_congr (c : BlockCipher) (key : Bytes16) (o : ByteOffset) (i : Nat) {c1 c2 : Bytes16}
    (h : c1.val.take 9 = c2.val.take 9) (xs : List Bytes16) :
    (ctrChunks c key o i c1 xs).2 = (ctrChunks c key o i c2 xs).2 := by
  cases xs with
  | nil => rfl
  | cons x xs => simp only [ctrChunks, setCounterLow_congr h]

/-! ### The commands -/

/-- XTSH has one response, whatever the state (R21). -/
theorem execXtshWith_pure (p : Params) (key data : Bytes) :
    ∃ st x, ∀ s, execXtshWith p key data s = .next (respond st x s) := by
  cases hk : asBytesN 32 key with
  | none => exact ⟨.invalidKeyLength, [], fun s => by simp only [execXtshWith, hk, raise]⟩
  | some k =>
    by_cases hd : data.length = 3072
    · by_cases hm : slice (xtsFirstRegion p.cipher k data) 512 516 = p.magic.val
      · exact ⟨.ok, xtsFirstRegion p.cipher k data ++ xtsSecondRegion p.cipher k data,
          fun s => by simp [execXtshWith, hk, hd, hm, complete]⟩
      · exact ⟨.formatMismatch, [], fun s => by simp [execXtshWith, hk, hd, hm, raise]⟩
    · exact ⟨.invalidBufferLength, [], fun s => by simp [execXtshWith, hk, hd, raise]⟩

/-- ECBD has one response, whatever the state (R21). -/
theorem execEcbdWith_pure (p : Params) (key block : Bytes) :
    ∃ st x, ∀ s, execEcbdWith p key block s = .next (respond st x s) := by
  cases hk : asBytesN 16 key with
  | none => exact ⟨.invalidKeyLength, [], fun s => by simp only [execEcbdWith, hk, raise]⟩
  | some k =>
    cases hb : asBytesN 16 block with
    | none => exact ⟨.invalidBufferLength, [], fun s => by simp only [execEcbdWith, hk, hb, raise]⟩
    | some b => exact ⟨.ok, (p.cipher.D k b).val, fun s => by simp only [execEcbdWith, hk, hb, complete]⟩

/-- CBCD has one response, whatever the state (R21). -/
theorem execCbcdWith_pure (p : Params) (key iv region : Bytes) :
    ∃ st x, ∀ s, execCbcdWith p key iv region s = .next (respond st x s) := by
  cases hk : asBytesN 16 key with
  | none => exact ⟨.invalidKeyLength, [], fun s => by simp only [execCbcdWith, hk, raise]⟩
  | some k =>
    cases hv : asBytesN 16 iv with
    | none => exact ⟨.invalidBufferLength, [], fun s => by simp only [execCbcdWith, hk, hv, raise]⟩
    | some v =>
      by_cases hr : region.length = 112
      · exact ⟨.ok, ofBlocks (cbcBlocks p.cipher k v (toBlocks region)),
          fun s => by simp [execCbcdWith, hk, hv, hr, complete]⟩
      · exact ⟨.invalidBufferLength, [], fun s => by simp [execCbcdWith, hk, hv, hr, raise]⟩

/-- CTRI does the same in every state: one error, or one new cursor (R122). -/
theorem execCtri_uniform (key nonce : Bytes) (o : ByteOffset) :
    (∃ e, ∀ s, execCtri key nonce o s = .next (respond e [] s)) ∨
    ∃ k c, ∀ s, execCtri key nonce o s = .next (respond .ok [] (installCursor k c s)) := by
  cases hk : asBytesN 16 key with
  | none => exact .inl ⟨.invalidKeyLength, fun s => by simp only [execCtri, hk, raise]⟩
  | some k =>
    cases hn : asBytesN 8 nonce with
    | none => exact .inl ⟨.invalidBufferLength, fun s => by simp only [execCtri, hk, hn, raise]⟩
    | some n => exact .inr ⟨k, initialCounter n o, fun s => by simp only [execCtri, hk, hn, complete]⟩

/-- CTRR without a cursor (R164). -/
theorem execCtrrWith_of_invalid (p : Params) (o : ByteOffset) (d : Bytes) {s : State} (hv : s.cur.valid = false) :
    execCtrrWith p o d s = .next (respond .noCursor [] s) := by
  simp only [execCtrrWith, hv, if_true, raise]

/-- CTRR on a length the policy `reject` refuses (R128). -/
theorem execCtrrWith_of_misaligned {p : Params} (o : ByteOffset) {d : Bytes} {s : State} (hv : s.cur.valid = true)
    (hd : d.length % 16 ≠ 0) (hp : p.tailPolicy = .reject) :
    execCtrrWith p o d s = .next (respond .unsupportedOffsetAlignment [] s) := by
  simp [execCtrrWith, hv, hd, hp, raise]

/-- CTRR with a cursor, on a length the policy accepts: the read (R123). -/
theorem execCtrrWith_of_cursor {p : Params} (o : ByteOffset) {d : Bytes} {s : State} {key ctr : Bytes16}
    (hc : s.cur = ⟨true, some key, some ctr⟩) (hd : d.length % 16 = 0 ∨ p.tailPolicy = .drop) :
    execCtrrWith p o d s =
      .next (respond .ok
        (ofBlocks (ctrChunks p.cipher key o 0 ctr (toBlocks d)).2 ++ d.drop (16 * (d.length / 16)))
        (writeCounter (ctrChunks p.cipher key o 0 ctr (toBlocks d)).1 s)) := by
  have haccept : ¬(d.length % 16 ≠ 0 ∧ p.tailPolicy = .reject) := by
    rintro ⟨hne, hrej⟩
    rcases hd with h | h
    · exact hne h
    · rw [h] at hrej
      cases hrej
  simp only [execCtrrWith, hc, Bool.true_eq_false, if_false, if_neg haccept, readCursor, complete]

/-- An outcome has one next state. -/
theorem next_unique {out : Host.Outcome State Fault Refusal} {s t : State} (hs : out = .next s) (ht : out = .next t) :
    s = t := by
  injection hs.symm.trans ht

/-- All that a command can do to the state (R12). It answers and writes nothing else; or it is a CTRI with operands of
the right sizes, which writes all of `CUR`; or it is a CTRR with a cursor, which writes bytes 9 to 15 of `CTR`. -/
theorem execWith_next_cases {p : Params} {i : Instr} {s t : State} (h : execWith p i s = .next t) :
    (∃ st x, t = respond st x s) ∨
    (∃ key nonce o k c, i = .ctri key nonce o ∧ key.length = 16 ∧ nonce.length = 8 ∧
      t = respond .ok [] (installCursor k c s)) ∨
    (∃ o d key c1 c2 x, i = .ctrr o d ∧ s.cur = ⟨true, some key, some c1⟩ ∧ c2.val.take 9 = c1.val.take 9 ∧
      t = respond .ok x (writeCounter c2 s)) := by
  cases i with
  | xtsh key data =>
    obtain ⟨st, x, heq⟩ := execXtshWith_pure p key data
    exact .inl ⟨st, x, next_unique h (heq s)⟩
  | ecbd key block =>
    obtain ⟨st, x, heq⟩ := execEcbdWith_pure p key block
    exact .inl ⟨st, x, next_unique h (heq s)⟩
  | cbcd key iv region =>
    obtain ⟨st, x, heq⟩ := execCbcdWith_pure p key iv region
    exact .inl ⟨st, x, next_unique h (heq s)⟩
  | ctri key nonce o =>
    rcases execCtri_cases key nonce o s with ⟨-, heq⟩ | ⟨-, -, heq⟩ | ⟨k, n, hk, hn, heq⟩
    · exact .inl ⟨_, _, next_unique h heq⟩
    · exact .inl ⟨_, _, next_unique h heq⟩
    · exact .inr (.inl ⟨key, nonce, o, k, _, rfl, hk ▸ k.property, hn ▸ n.property, next_unique h heq⟩)
  | ctrr o d =>
    rcases execCtrrWith_cases p o d s with ⟨-, heq⟩ | ⟨-, -, -, heq⟩ | ⟨key, ctr, hc, -, heq⟩ | ⟨-, -, heq⟩
    · exact .inl ⟨_, _, next_unique h heq⟩
    · exact .inl ⟨_, _, next_unique h heq⟩
    · exact .inr (.inr ⟨o, d, key, ctr, _, _, rfl, hc, ctrChunks_take .., next_unique h heq⟩)
    · cases h.symm.trans heq

/-- A command that ends in an error leaves `CUR` as it was (R166). -/
theorem execWith_error_cur {p : Params} {i : Instr} {s t : State} {r : Response} (h : execWith p i s = .next t)
    (hr : t.responses = s.responses ++ [r]) (hst : r.status ≠ .ok) : t.cur = s.cur := by
  have not_ok : ∀ x, t.responses ≠ s.responses ++ [⟨.ok, x⟩] := fun x hx => by
    have : [r] = [⟨.ok, x⟩] := List.append_cancel_left (hr.symm.trans hx)
    simp_all
  rcases execWith_next_cases h with ⟨st, x, rfl⟩ | ⟨_, _, _, _, _, _, _, _, rfl⟩ | ⟨_, _, _, _, _, x, _, _, _, rfl⟩
  · rfl
  · exact absurd rfl (not_ok [])
  · exact absurd rfl (not_ok x)

end Sys2Proof.Machine
end

section
/-! SUPPORT. What a command answers depends on the visible part of `CUR` alone (spec R17, R130): two states in which
`VALID`, `KEY`, `NONCE` and `CTR_HI` agree give one response, whatever stands in `CTR_LO` and whatever was answered before. -/

namespace Sys2Proof.Machine

/-- Two states whose cursors differ at most in `CTR_LO`; nothing is said of the command interface. -/
structure SameVisibleCursor (s t : State) : Prop where
  valid : s.cur.valid = t.cur.valid
  key : s.cur.key = t.cur.key
  counter : counterPrefix s = counterPrefix t

/-- Two executions, from `s` to `s1` and from `t` to `t1`, give the same response and leave cursors alike. -/
structure AnswersAlike (s s1 t t1 : State) : Prop where
  response : ∃ r, s1.responses = s.responses ++ [r] ∧ t1.responses = t.responses ++ [r]
  inputs_left : s1.inputs = s.inputs
  inputs_right : t1.inputs = t.inputs
  visible : SameVisibleCursor s1 t1
  cur : s.cur = t.cur → s1.cur = t1.cur

/-- States with one cursor agree in its visible part. -/
theorem SameVisibleCursor.of_cur_eq {s t : State} (h : s.cur = t.cur) : SameVisibleCursor s t :=
  ⟨h ▸ rfl, h ▸ rfl, counterPrefix_of_cur_eq h⟩

/-- States that differ in `CTR_LO` alone are those that agree in the visible cursor and in the command interface. -/
theorem sameButCounterLow_iff {s t : State} :
    SameButCounterLow s t ↔ SameVisibleCursor s t ∧ s.inputs = t.inputs ∧ s.responses = t.responses :=
  ⟨fun ⟨hv, hk, hc, hi, hr⟩ => ⟨⟨hv, hk, hc⟩, hi, hr⟩, fun ⟨⟨hv, hk, hc⟩, hi, hr⟩ => ⟨hv, hk, hc, hi, hr⟩⟩

/-- A cursor that agrees with a present one in the visible part is present, with the same key and bytes 0 to 8. -/
theorem SameVisibleCursor.exists_cursor {s t : State} {key c1 : Bytes16} (h : SameVisibleCursor s t)
    (hs : s.cur = ⟨true, some key, some c1⟩) :
    ∃ c2, t.cur = ⟨true, some key, some c2⟩ ∧ c1.val.take 9 = c2.val.take 9 := by
  obtain ⟨⟨v, k, c⟩, inputs, responses⟩ := t
  obtain ⟨hv, hk, hc⟩ := h
  rw [counterPrefix_of_cur hs] at hc
  rw [hs] at hv hk
  obtain ⟨c2, rfl, hpre⟩ := Option.map_eq_some_iff.mp hc.symm
  obtain rfl : true = v := hv
  obtain rfl : some key = k := hk
  exact ⟨c2, rfl, hpre.symm⟩

/-- Answering and nothing else. -/
theorem answersAlike_respond {s t : State} (h : SameVisibleCursor s t) (st : Status) (x : Bytes) :
    AnswersAlike s (respond st x s) t (respond st x t) :=
  ⟨⟨⟨st, x⟩, rfl, rfl⟩, rfl, rfl, ⟨h.valid, h.key, h.counter⟩, id⟩

/-- The same new cursor in both. -/
theorem answersAlike_installCursor (s t : State) (k c : Bytes16) :
    AnswersAlike s (respond .ok [] (installCursor k c s)) t (respond .ok [] (installCursor k c t)) :=
  ⟨⟨⟨.ok, []⟩, rfl, rfl⟩, rfl, rfl, ⟨rfl, rfl, rfl⟩, fun _ => rfl⟩

/-- CTRR answers alike in two states whose cursors agree in the visible part (R130). -/
theorem execCtrrWith_alike {p : Params} {o : ByteOffset} {d : Bytes} {s t s1 : State} (h : SameVisibleCursor s t)
    (hs : execCtrrWith p o d s = .next s1) : ∃ t1, execCtrrWith p o d t = .next t1 ∧ AnswersAlike s s1 t t1 := by
  rcases execCtrrWith_cases p o d s with ⟨hv, heq⟩ | ⟨hv, hd, hp, heq⟩ | ⟨key, c1, hc, hd, heq⟩ | ⟨-, -, heq⟩ <;>
    rw [heq] at hs <;> cases hs
  · exact ⟨_, execCtrrWith_of_invalid p o d (h.valid ▸ hv), answersAlike_respond h _ _⟩
  · exact ⟨_, execCtrrWith_of_misaligned o (h.valid ▸ hv) hd hp, answersAlike_respond h _ _⟩
  · obtain ⟨c2, ht, hpre⟩ := h.exists_cursor hc
    have hplain := ctrChunks_plaintext_congr p.cipher key o 0 hpre (toBlocks d)
    refine ⟨_, execCtrrWith_of_cursor o ht hd, ⟨⟨_, rfl, ?_⟩, rfl, rfl, ⟨h.valid, h.key, ?_⟩, fun hst => ?_⟩⟩
    · rw [hplain]
      rfl
    · simp [ctrChunks_take, hpre]
    · obtain rfl : c1 = c2 := by
        rw [hc, ht] at hst
        injection hst with _ _ hctr
        injection hctr
      simp [writeCounter, respond, hst]

/-- Every command answers alike in two states whose cursors agree in the visible part. -/
theorem execWith_alike {p : Params} {i : Instr} {s t s1 : State} (h : SameVisibleCursor s t)
    (hs : execWith p i s = .next s1) : ∃ t1, execWith p i t = .next t1 ∧ AnswersAlike s s1 t t1 := by
  have pure_alike : ∀ {st x}, (∀ u, execWith p i u = .next (respond st x u)) →
      ∃ t1, execWith p i t = .next t1 ∧ AnswersAlike s s1 t t1 := fun {st x} heq => by
    rw [heq s] at hs
    cases hs
    exact ⟨_, heq t, answersAlike_respond h st x⟩
  cases i with
  | xtsh key data =>
    obtain ⟨_, _, heq⟩ := execXtshWith_pure p key data
    exact pure_alike heq
  | ecbd key block =>
    obtain ⟨_, _, heq⟩ := execEcbdWith_pure p key block
    exact pure_alike heq
  | cbcd key iv region =>
    obtain ⟨_, _, heq⟩ := execCbcdWith_pure p key iv region
    exact pure_alike heq
  | ctri key nonce o =>
    rcases execCtri_uniform key nonce o with ⟨_, heq⟩ | ⟨k, c, heq⟩
    · exact pure_alike heq
    · cases (heq s).symm.trans hs
      exact ⟨_, heq t, answersAlike_installCursor s t k c⟩
  | ctrr o d => exact execCtrrWith_alike h hs

/-- The same of this machine. -/
theorem exec_alike {i : Instr} {s t s1 : State} (h : SameVisibleCursor s t) (hs : exec i s = .next s1) :
    ∃ t1, exec i t = .next t1 ∧ AnswersAlike s s1 t t1 := by
  rw [exec_eq_execWith] at hs ⊢
  exact execWith_alike h hs

/-- A step is matched by a step: both states have the same input next, and a command answers alike (R17). -/
theorem step_sameButCounterLow {s t s1 : State} (h : SameButCounterLow s t) (hs : step s = .next s1) :
    ∃ t1, step t = .next t1 ∧ SameButCounterLow s1 t1 := by
  obtain ⟨hcur, hin, hres⟩ := sameButCounterLow_iff.mp h
  rcases inputs_cases s with hn | ⟨rest, hn⟩ | ⟨p, rest, i, hn, hdec⟩ | ⟨p, rest, e, hn, hdec⟩
  · rw [step_of_idle hn] at hs
    cases hs
    exact ⟨t, step_of_idle (hin ▸ hn), h⟩
  · rw [step_of_reset hn] at hs
    cases hs
    exact ⟨_, step_of_reset (hin ▸ hn), sameButCounterLow_iff.mpr ⟨.of_cur_eq rfl, rfl, rfl⟩⟩
  · rw [step_of_decode_ok hn hdec] at hs
    have hrest : SameVisibleCursor { s with inputs := rest } { t with inputs := rest } :=
      ⟨hcur.valid, hcur.key, hcur.counter⟩
    obtain ⟨t1, ht, ⟨r, hr, hr'⟩, hi, hi', hvis, -⟩ := exec_alike hrest hs
    refine ⟨t1, (step_of_decode_ok (hin ▸ hn) hdec).trans ht, sameButCounterLow_iff.mpr ⟨hvis, hi.trans hi'.symm, ?_⟩⟩
    rw [hr, hr', hres]
  · rw [step_of_decode_error hn hdec] at hs
    cases hs
    exact ⟨_, step_of_decode_error (hin ▸ hn) hdec,
      sameButCounterLow_iff.mpr ⟨⟨hcur.valid, hcur.key, hcur.counter⟩, rfl, by simp [hres]⟩⟩

end Sys2Proof.Machine
end

section
/-! SUPPORT. The state and the step (spec 10_state.md): the invariant, who writes `CUR`, what of it can be observed. -/

namespace Sys2Proof.Machine

/-- The invariant speaks of `CUR` alone. -/
theorem CursorCoherent.of_cur_eq {s t : State} (hs : CursorCoherent s) (h : t.cur = s.cur) : CursorCoherent t := by
  rw [CursorCoherent, h]
  exact hs

/-- A command keeps the invariant: CTRI writes a whole cursor, CTRR replaces a counter block that is there. -/
theorem execWith_keeps_coherent {p : Params} {i : Instr} {s t : State} (hs : CursorCoherent s)
    (h : execWith p i s = .next t) : CursorCoherent t := by
  rcases execWith_next_cases h with ⟨st, x, rfl⟩ | ⟨_, _, _, k, c, _, _, _, rfl⟩ | ⟨_, _, key, c1, c2, x, _, hc, _, rfl⟩
  · exact hs.of_cur_eq rfl
  · exact ⟨rfl, rfl⟩
  · simp [CursorCoherent, hc]

/-- Settles O33: by the kinds of step; a command keeps the invariant by what it can write. -/
theorem stepKeepsCursorCoherent : Obligations.StepKeepsCursorCoherent := by
  intro s t hs hstep
  rcases inputs_cases s with hn | ⟨rest, hn⟩ | ⟨p, rest, i, hn, hdec⟩ | ⟨p, rest, e, hn, hdec⟩
  · rw [step_of_idle hn] at hstep
    cases hstep
    exact hs
  · rw [step_of_reset hn] at hstep
    cases hstep
    exact ⟨rfl, rfl⟩
  · rw [step_of_decode_ok hn hdec, exec_eq_execWith] at hstep
    have hrest : CursorCoherent { s with inputs := rest } := hs.of_cur_eq rfl
    exact execWith_keeps_coherent hrest hstep
  · rw [step_of_decode_error hn hdec] at hstep
    cases hstep
    exact hs.of_cur_eq rfl

/-- Settles O41, by induction on the length of the run. -/
theorem counterLowIsNeverObservable : Obligations.CounterLowIsNeverObservable := by
  intro n
  induction n with
  | zero =>
    intro s t s1 h hrun
    cases hrun
    exact ⟨t, rfl, h⟩
  | succ n ih =>
    intro s t s1 h hrun
    rw [runFor_succ] at hrun
    split at hrun
    · obtain ⟨t', ht', h'⟩ := step_sameButCounterLow h ‹_›
      obtain ⟨t1, ht1, h1⟩ := ih _ _ _ h' hrun
      exact ⟨t1, by rw [runFor_succ, ht']; exact ht1, h1⟩
    · cases hrun
    · cases hrun

/-- Settles O31: the error leaves `CUR` as it was, and a command's answer depends on `CUR` alone. -/
theorem errorsAreNotSticky : Obligations.ErrorsAreNotSticky := by
  intro i j s t u r hi hr hst hj
  rw [exec_eq_execWith] at hi
  have hcur : s.cur = t.cur := (execWith_error_cur hi hr hst).symm
  obtain ⟨v, hv, ⟨q, hq, hq'⟩, -, -, -, hsame⟩ := exec_alike (.of_cur_eq hcur) hj
  exact ⟨v, q, hv, (hsame hcur).symm, hq, hq'⟩

/-- Settles O32: of each of the three commands the one response, from the operands and the parameters. -/
theorem pureCommandsIgnoreTheCursor : Obligations.PureCommandsIgnoreTheCursor := by
  refine ⟨fun key data => ?_, fun key block => ?_, fun key iv region => ?_⟩
  · obtain ⟨st, x, h⟩ := execXtshWith_pure Config.params key data
    exact ⟨⟨st, x⟩, h⟩
  · obtain ⟨st, x, h⟩ := execEcbdWith_pure Config.params key block
    exact ⟨⟨st, x⟩, h⟩
  · obtain ⟨st, x, h⟩ := execCbcdWith_pure Config.params key iv region
    exact ⟨⟨st, x⟩, h⟩

/-- Settles O40: by the kinds of step; a command by what it can write. -/
theorem onlyCursorCommandsWriteTheCursor : Obligations.OnlyCursorCommandsWriteTheCursor := by
  intro s t hstep
  rcases inputs_cases s with hn | hn | ⟨p, rest, i, hn, hdec⟩ | ⟨p, rest, e, hn, hdec⟩
  · rw [step_of_idle hn] at hstep
    cases hstep
    exact .inr (.inr ⟨rfl, rfl, rfl, .inl rfl⟩)
  · exact .inl hn
  · rw [step_of_decode_ok hn hdec, exec_eq_execWith] at hstep
    rcases execWith_next_cases hstep with ⟨st, x, rfl⟩ | ⟨key, nonce, o, k, c, rfl, hkey, hnonce, -⟩ |
      ⟨o, d, key, c1, c2, x, rfl, hc, hpre, rfl⟩
    · exact .inr (.inr ⟨rfl, rfl, rfl, .inl rfl⟩)
    · exact .inr (.inl ⟨p, rest, key, nonce, o, hn, hdec, hkey, hnonce⟩)
    · have hprefix : counterPrefix s = some (c1.val.take 9) := counterPrefix_of_cur hc
      exact .inr (.inr ⟨rfl, rfl, by simp [hprefix, hpre], .inr ⟨p, rest, o, d, hn, hdec⟩⟩)
  · rw [step_of_decode_error hn hdec] at hstep
    cases hstep
    exact .inr (.inr ⟨rfl, rfl, rfl, .inl rfl⟩)

/-- Settles O1. A command that a packet decodes to is executed whether or not it is known to be well formed. -/
theorem stepRunsDecodedCommand : Obligations.StepRunsDecodedCommand :=
  fun _ _ _ _ hin hdec _ => step_of_decode_ok hin hdec

/-- Settles O36, field by field of the state after reset. -/
theorem resetLeavesNoCursor : Obligations.ResetLeavesNoCursor := ⟨rfl, rfl, rfl, rfl, rfl⟩

/-- Settles O34: `VALID` is 0 and neither `KEY` nor `CTR` holds a value. -/
theorem resetIsCursorCoherent : Obligations.ResetIsCursorCoherent := by
  obtain ⟨hvalid, hkey, hctr, -, -⟩ := resetLeavesNoCursor
  simp only [Obligations.ResetIsCursorCoherent, CursorCoherent, hvalid, hkey, hctr, Option.isSome_none, and_self]

end Sys2Proof.Machine
end

section
/-! SUPPORT. Runs over the packets a host presents (spec R43, R197, R198): a command from a coherent state goes on with one
response, and a run takes the packets one at a time. -/

namespace Sys2Proof.Machine

/-! ### One command -/

/-- The one fault there is, CTRR's, is in no coherent state (R20). -/
theorem execCtrrWith_goes_on (p : Params) (o : ByteOffset) (d : Bytes) {s : State} (hs : CursorCoherent s) :
    ∃ t, execCtrrWith p o d s = .next t := by
  rcases execCtrrWith_cases p o d s with ⟨-, heq⟩ | ⟨-, -, -, heq⟩ | ⟨_, _, -, -, heq⟩ | ⟨hvalid, habsent, -⟩
  · exact ⟨_, heq⟩
  · exact ⟨_, heq⟩
  · exact ⟨_, heq⟩
  · obtain ⟨hkey, hctr⟩ := hs
    rcases habsent with h | h
    · simp [h, hvalid] at hkey
    · simp [h, hvalid] at hctr

/-- Every command goes on from a coherent state (R167, R197). -/
theorem execWith_goes_on (p : Params) (i : Instr) {s : State} (hs : CursorCoherent s) :
    ∃ t, execWith p i s = .next t := by
  cases i with
  | xtsh key data =>
    obtain ⟨_, _, heq⟩ := execXtshWith_pure p key data
    exact ⟨_, heq s⟩
  | ecbd key block =>
    obtain ⟨_, _, heq⟩ := execEcbdWith_pure p key block
    exact ⟨_, heq s⟩
  | cbcd key iv region =>
    obtain ⟨_, _, heq⟩ := execCbcdWith_pure p key iv region
    exact ⟨_, heq s⟩
  | ctri key nonce o =>
    rcases execCtri_uniform key nonce o with ⟨_, heq⟩ | ⟨_, _, heq⟩
    · exact ⟨_, heq s⟩
    · exact ⟨_, heq s⟩
  | ctrr o d => exact execCtrrWith_goes_on p o d hs

/-- A command adds one response and leaves what is pending (R20). -/
theorem execWith_interface {p : Params} {i : Instr} {s t : State} (h : execWith p i s = .next t) :
    t.inputs = s.inputs ∧ ∃ r, t.responses = s.responses ++ [r] := by
  rcases execWith_next_cases h with ⟨_, _, rfl⟩ | ⟨_, _, _, _, _, _, _, _, rfl⟩ | ⟨_, _, _, _, _, _, _, _, _, rfl⟩
  · exact ⟨rfl, _, rfl⟩
  · exact ⟨rfl, _, rfl⟩
  · exact ⟨rfl, _, rfl⟩

/-- A step on a packet, legal or not: the packet is taken, one response is added, the invariant is kept. -/
theorem step_of_command {s : State} {p : Bytes} {rest : List HostInput} (hs : CursorCoherent s)
    (hin : s.inputs = .command p :: rest) :
    ∃ t r, step s = .next t ∧ CursorCoherent t ∧ t.inputs = rest ∧ t.responses = s.responses ++ [r] := by
  cases hdec : decode p with
  | error e => exact ⟨_, _, step_of_decode_error hin hdec, hs.of_cur_eq rfl, rfl, rfl⟩
  | ok i =>
    have hrest : CursorCoherent { s with inputs := rest } := hs.of_cur_eq rfl
    obtain ⟨t, ht⟩ := execWith_goes_on Config.params i hrest
    obtain ⟨hinputs, r, hr⟩ := execWith_interface ht
    have hstep : step s = .next t := by rw [step_of_decode_ok hin hdec, exec_eq_execWith, ht]
    exact ⟨t, r, hstep, execWith_keeps_coherent hrest ht, hinputs, hr⟩

/-! ### Runs -/

/-- A run whose first step goes on. -/
theorem runFor_succ_of_step {s t : State} (h : step s = .next t) (n : Nat) : runFor (n + 1) s = runFor n t := by
  rw [runFor_succ, h]

/-- With nothing pending a run of any length changes nothing (R198). -/
theorem runFor_of_idle {s : State} (h : s.inputs = []) (n : Nat) : runFor n s = .next s := by
  induction n with
  | zero => exact runFor_zero s
  | succ n ih => exact (runFor_succ_of_step (step_of_idle h) n).trans ih

/-- A run that goes on can be cut in two. -/
theorem runFor_add {m : Nat} {s t : State} (h : runFor m s = .next t) (n : Nat) : runFor (m + n) s = runFor n t := by
  induction m generalizing s with
  | zero =>
    cases h
    rw [Nat.zero_add]
  | succ m ih =>
    rw [runFor_succ] at h
    split at h
    · rw [Nat.succ_add, runFor_succ_of_step ‹_›, ih h]
    · cases h
    · cases h

/-- The packets pending in a coherent state are taken from the front, one response each, at every length of run: past the
last packet nothing is left to take and every response is there. -/
theorem runFor_answers_in_order {packets : List Bytes} {s : State} (hs : CursorCoherent s)
    (hin : s.inputs = packets.map .command) :
    ∃ rs : List Response, rs.length = packets.length ∧
      ∀ k, ∃ t, runFor k s = .next t ∧ t.inputs = (packets.drop k).map .command ∧
        t.responses = s.responses ++ rs.take k := by
  induction packets generalizing s with
  | nil => exact ⟨[], rfl, fun k => ⟨s, runFor_of_idle hin k, by simp [hin], by simp⟩⟩
  | cons p packets ih =>
    obtain ⟨t, r, hstep, ht, htin, htres⟩ := step_of_command hs hin
    obtain ⟨rs, hlen, hrun⟩ := ih ht htin
    refine ⟨r :: rs, congrArg (· + 1) hlen, fun k => ?_⟩
    cases k with
    | zero => exact ⟨s, runFor_zero s, hin, by simp⟩
    | succ k =>
      obtain ⟨u, hu, huin, hures⟩ := hrun k
      exact ⟨u, (runFor_succ_of_step hstep k).trans hu, huin, by simp [hures, htres]⟩

/-- Settles O39: by induction on the packets; after the last one the run idles. -/
theorem responsesComeInOrder : Obligations.ResponsesComeInOrder := by
  intro s packets hs
  have hpresent : CursorCoherent (presenting packets s) := hs.of_cur_eq rfl
  obtain ⟨rs, hlen, hrun⟩ := runFor_answers_in_order hpresent rfl
  refine ⟨rs, hlen, fun k _ => hrun k, fun n hn => ?_⟩
  obtain ⟨t, ht, hdone, -⟩ := hrun packets.length
  have hidle : t.inputs = [] := by simpa using hdone
  obtain ⟨m, rfl⟩ := Nat.exists_eq_add_of_le hn
  rw [runFor_add ht, runFor_of_idle hidle, ht]

end Sys2Proof.Machine
end

section
/-! SUPPORT. The packet (spec R55 to R64): each operand field is read back from its own bytes, and bytes that hold no whole
field begin one. Fields put together give layouts, layouts give the decoder, and the verdicts follow: a byte string is empty,
has a reserved opcode, begins with the packet of one command, or is a proper beginning of such a packet. -/

namespace Sys2Proof.Laws

open Sys2Proof.Machine

/-! ### Operand fields -/

/-- The operand can be carried in a `LEN32` field, and these are the field's bytes (R57). -/
def IsField (x e : Bytes) : Prop := fieldFits x = true ∧ encodeField x = e

/-- These are the bytes of the `OFFSET` field (R58). -/
def IsOffset (o : ByteOffset) (e : Bytes) : Prop := encodeOffset o = e

/-- `take` reads the operands whose bytes `field` describes: it reads them wherever they stand first, and finds nothing only
in bytes that break off inside a field (R61 case 3). -/
structure ReadsOperand {α : Type} (take : Bytes → Option (α × Bytes)) (field : α → Bytes → Prop) : Prop where
  take_append : ∀ {x e}, field x e → ∀ rest, take (e ++ rest) = some (x, rest)
  whole_or_broken : ∀ b, (∃ x e rest, field x e ∧ b = e ++ rest) ∨
    (take b = none ∧ ∃ x e ext, field x e ∧ ext ≠ [] ∧ b ++ ext = e)

theorem fieldFits_iff {x : Bytes} : fieldFits x = true ↔ x.length < 2 ^ 32 := decide_eq_true_iff

/-- Four bytes and as many more as they announce are a field. -/
theorem isField_of_announced {hd x : Bytes} (hhd : hd.length = 4) (hx : x.length = beNat hd) : IsField x (hd ++ x) := by
  have hlt := beNat_lt hd
  have hbytes := beBytes_beNat hd
  rw [hhd] at hlt hbytes
  exact ⟨fieldFits_iff.mpr (by omega), by rw [encodeField, hx, hbytes]⟩

/-- The length bytes of a field announce the operand's length (R57). -/
theorem beNat_lengthBytes {x : Bytes} (hx : fieldFits x = true) : beNat (beBytes 4 x.length) = x.length := by
  have hlt := fieldFits_iff.mp hx
  rw [beNat_beBytes, Nat.mod_eq_of_lt (by omega)]

/-- A byte-string field is read back, and bytes that hold no whole one break off in its length bytes or in the bytes it
announces (R57, R68). -/
theorem takeField_reads : ReadsOperand takeField IsField where
  take_append := by
    rintro x _ ⟨hfits, rfl⟩ rest
    have hprefix : (beBytes 4 x.length ++ x ++ rest).take 4 = beBytes 4 x.length := by simp
    have hbody : (beBytes 4 x.length ++ x ++ rest).drop 4 = x ++ rest := by simp
    rw [takeField, encodeField, hprefix, hbody, beNat_lengthBytes hfits]
    simp
  whole_or_broken b := by
    by_cases hprefix : b.length < 4
    · have hhd : (b ++ List.replicate (4 - b.length) 0).length = 4 := by simp; omega
      have hfield := isField_of_announced hhd (List.length_replicate (a := (0 : Byte)))
      exact .inr ⟨by rw [takeField, if_pos hprefix], _, _, _, hfield, by simp; omega, (List.append_assoc ..).symm⟩
    · have hhd : (b.take 4).length = 4 := by simp; omega
      have hsplit : b.take 4 ++ b.drop 4 = b := List.take_append_drop 4 b
      by_cases hbody : (b.drop 4).length < beNat (b.take 4)
      · obtain ⟨k, hk⟩ := Nat.exists_eq_add_of_lt hbody
        have hx : (b.drop 4 ++ List.replicate (k + 1) 0).length = beNat (b.take 4) := by
          rw [List.length_append, List.length_replicate, hk, Nat.add_assoc]
        exact .inr ⟨by rw [takeField, if_neg hprefix, if_pos hbody], _, _, List.replicate (k + 1) 0,
          isField_of_announced hhd hx, by simp, by rw [← List.append_assoc, hsplit]⟩
      · have hx : ((b.drop 4).take (beNat (b.take 4))).length = beNat (b.take 4) := List.length_take_of_le (by omega)
        exact .inl ⟨_, _, _, isField_of_announced hhd hx, by rw [List.append_assoc, List.take_append_drop, hsplit]⟩

/-- Eight bytes are the `OFFSET` field of the integer they encode (R58). -/
theorem isOffset_beNat {e : Bytes} (he : e.length = 8) : IsOffset (BitVec.ofNat 64 (beNat e)) e := by
  have hlt := beNat_lt e
  have hbytes := beBytes_beNat e
  rw [he] at hlt hbytes
  rw [IsOffset, encodeOffset, BitVec.toNat_ofNat, Nat.mod_eq_of_lt (by omega), hbytes]

/-- An `OFFSET` field is read back, and bytes that hold no whole one are fewer than 8 (R58). -/
theorem takeOffset_reads : ReadsOperand takeOffset IsOffset where
  take_append := by
    rintro o _ rfl rest
    have hlt := o.isLt
    have hread : beNat (beBytes 8 o.toNat) = o.toNat := by rw [beNat_beBytes, Nat.mod_eq_of_lt (by omega)]
    simp [takeOffset, encodeOffset, hread]
  whole_or_broken b := by
    by_cases h : b.length < 8
    · have he : (b ++ List.replicate (8 - b.length) 0).length = 8 := by simp; omega
      exact .inr ⟨by rw [takeOffset, if_pos h], _, _, _, isOffset_beNat he, by simp; omega, rfl⟩
    · have he : (b.take 8).length = 8 := by simp; omega
      exact .inl ⟨_, _, _, isOffset_beNat he, (List.take_append_drop 8 b).symm⟩

/-! ### Layouts -/

/-- Read one operand and go on with it: the step the four formats of R59 are made of. -/
def readThen {α : Type} (take : Bytes → Option (α × Bytes)) (next : α → Bytes → Except DecodeError Instr) (b : Bytes) :
    Except DecodeError Instr :=
  match take b with
  | none => .error .truncated
  | some (x, rest) => next x rest

/-- `dec` reads the commands whose operand bytes `body` describes: bytes that begin with a whole body give the command if
nothing follows, and others are `truncated`, since more bytes make them a whole body (R61 cases 3 and 4). -/
structure ReadsLayout (dec : Bytes → Except DecodeError Instr) (body : Instr → Bytes → Prop) : Prop where
  dec_append : ∀ {i e}, body i e → ∀ rest, dec (e ++ rest) = finishPacket i rest
  whole_or_broken : ∀ b, (∃ i e rest, body i e ∧ b = e ++ rest) ∨
    (dec b = .error .truncated ∧ ∃ i e ext, body i e ∧ ext ≠ [] ∧ b ++ ext = e)

/-- After the last field nothing is left to read (R56). -/
theorem finishPacket_reads (i : Instr) : ReadsLayout (finishPacket i) (fun j e => i = j ∧ [] = e) where
  dec_append := by
    rintro _ _ ⟨rfl, rfl⟩ rest
    rfl
  whole_or_broken b := .inl ⟨i, [], b, ⟨rfl, rfl⟩, rfl⟩

/-- One operand field before a layout is a layout. Bytes that break off in the field are completed by the rest of the field
and some body of what is to follow. -/
theorem readThen_reads {α : Type} {take : Bytes → Option (α × Bytes)} {field : α → Bytes → Prop}
    {next : α → Bytes → Except DecodeError Instr} {body : α → Instr → Bytes → Prop}
    (htake : ReadsOperand take field) (hnext : ∀ x, ReadsLayout (next x) (body x)) :
    ReadsLayout (readThen take next) (fun i e => ∃ x e1 e2, field x e1 ∧ body x i e2 ∧ e1 ++ e2 = e) where
  dec_append := by
    rintro i _ ⟨x, e1, e2, hfield, hbody, rfl⟩ rest
    rw [List.append_assoc, readThen, htake.take_append hfield]
    exact (hnext x).dec_append hbody rest
  whole_or_broken b := by
    rcases htake.whole_or_broken b with ⟨x, e1, b1, hfield, rfl⟩ | ⟨hnone, x, _, ext, hfield, hext, rfl⟩
    · rcases (hnext x).whole_or_broken b1 with ⟨i, e2, rest, hbody, rfl⟩ | ⟨hdec, i, _, ext, hbody, hext, rfl⟩
      · exact .inl ⟨i, _, rest, ⟨x, e1, e2, hfield, hbody, rfl⟩, (List.append_assoc ..).symm⟩
      · refine .inr ⟨?_, i, _, ext, ⟨x, e1, _, hfield, hbody, rfl⟩, hext, List.append_assoc ..⟩
        rw [readThen, htake.take_append hfield]
        exact hdec
    · obtain ⟨i, e2, hbody⟩ : ∃ i e2, body x i e2 := by
        rcases (hnext x).whole_or_broken [] with ⟨i, e2, -, h, -⟩ | ⟨-, i, e2, -, h, -⟩ <;> exact ⟨i, e2, h⟩
      exact .inr ⟨by rw [readThen, hnone], i, _, ext ++ e2, ⟨x, _, e2, hfield, hbody, rfl⟩, by simp [hext], by simp⟩

/-- A layout may be described in other words. -/
theorem ReadsLayout.of_iff {dec : Bytes → Except DecodeError Instr} {body body' : Instr → Bytes → Prop}
    (h : ReadsLayout dec body) (hiff : ∀ i e, body i e ↔ body' i e) : ReadsLayout dec body' := by
  obtain rfl : body = body' := funext₂ fun i e => propext (hiff i e)
  exact h

/-! The four formats of R59 are steps of this kind. -/

theorem decodeKD_eq_readThen (mk : Bytes → Bytes → Instr) :
    decodeKD mk = (readThen takeField fun key => readThen takeField fun data => finishPacket (mk key data)) := by
  funext b
  fun_cases decodeKD mk b <;> simp only [readThen, *]

theorem decodeKVD_eq_readThen (mk : Bytes → Bytes → Bytes → Instr) :
    decodeKVD mk = (readThen takeField fun key => readThen takeField fun iv => readThen takeField fun data =>
      finishPacket (mk key iv data)) := by
  funext b
  fun_cases decodeKVD mk b <;> simp only [readThen, *]

theorem decodeKNO_eq_readThen (mk : Bytes → Bytes → ByteOffset → Instr) :
    decodeKNO mk = (readThen takeField fun key => readThen takeField fun nonce => readThen takeOffset fun o =>
      finishPacket (mk key nonce o)) := by
  funext b
  fun_cases decodeKNO mk b <;> simp only [readThen, *]

theorem decodeOD_eq_readThen (mk : ByteOffset → Bytes → Instr) :
    decodeOD mk = (readThen takeOffset fun o => readThen takeField fun data => finishPacket (mk o data)) := by
  funext b
  fun_cases decodeOD mk b <;> simp only [readThen, *]

/-- Format `KD` (R59). -/
theorem decodeKD_reads (mk : Bytes → Bytes → Instr) :
    ReadsLayout (decodeKD mk) (fun i e => ∃ key data, fieldFits key = true ∧ fieldFits data = true ∧
      mk key data = i ∧ encodeField key ++ encodeField data = e) := by
  rw [decodeKD_eq_readThen]
  exact (readThen_reads takeField_reads fun key => readThen_reads takeField_reads fun data =>
    finishPacket_reads (mk key data)).of_iff fun i e => by simp [IsField, and_assoc]

/-- Format `KVD` (R59). -/
theorem decodeKVD_reads (mk : Bytes → Bytes → Bytes → Instr) :
    ReadsLayout (decodeKVD mk) (fun i e => ∃ key iv data, fieldFits key = true ∧ fieldFits iv = true ∧
      fieldFits data = true ∧ mk key iv data = i ∧ encodeField key ++ encodeField iv ++ encodeField data = e) := by
  rw [decodeKVD_eq_readThen]
  exact (readThen_reads takeField_reads fun key => readThen_reads takeField_reads fun iv =>
    readThen_reads takeField_reads fun data => finishPacket_reads (mk key iv data)).of_iff fun i e => by
      simp [IsField, and_assoc]

/-- Format `KNO` (R59). -/
theorem decodeKNO_reads (mk : Bytes → Bytes → ByteOffset → Instr) :
    ReadsLayout (decodeKNO mk) (fun i e => ∃ key nonce o, fieldFits key = true ∧ fieldFits nonce = true ∧
      mk key nonce o = i ∧ encodeField key ++ encodeField nonce ++ encodeOffset o = e) := by
  rw [decodeKNO_eq_readThen]
  exact (readThen_reads takeField_reads fun key => readThen_reads takeField_reads fun nonce =>
    readThen_reads takeOffset_reads fun o => finishPacket_reads (mk key nonce o)).of_iff fun i e => by
      simp [IsField, IsOffset, and_assoc]

/-- Format `OD` (R59). -/
theorem decodeOD_reads (mk : ByteOffset → Bytes → Instr) :
    ReadsLayout (decodeOD mk) (fun i e => ∃ o data, fieldFits data = true ∧
      mk o data = i ∧ encodeOffset o ++ encodeField data = e) := by
  rw [decodeOD_eq_readThen]
  exact (readThen_reads takeOffset_reads fun o => readThen_reads takeField_reads fun data =>
    finishPacket_reads (mk o data)).of_iff fun i e => by simp [IsField, IsOffset, and_assoc]

/-! ### The decoder -/

/-- Byte 0 is the opcode of a command (R55, R61 case 2). -/
def IsOpcode (opc : Byte) : Prop := 1 ≤ opc.toNat ∧ opc.toNat ≤ 5

theorem isOpcode_iff {opc : Byte} : IsOpcode opc ↔ opc = 1 ∨ opc = 2 ∨ opc = 3 ∨ opc = 4 ∨ opc = 5 := by
  unfold IsOpcode
  bv_omega

/-- Behind each opcode the decoder reads the operands of that opcode's command (R59, R67). -/
theorem decode_reads_of_isOpcode {opc : Byte} (h : IsOpcode opc) :
    ReadsLayout (fun b => decode (opc :: b)) (fun i e => i.wellFormed = true ∧ encode i = opc :: e) := by
  rcases isOpcode_iff.mp h with rfl | rfl | rfl | rfl | rfl
  · refine (decodeKD_reads .xtsh).of_iff fun i e => ?_
    cases i <;> simp [Instr.wellFormed, encode, and_assoc]
  · refine (decodeKD_reads .ecbd).of_iff fun i e => ?_
    cases i <;> simp [Instr.wellFormed, encode, and_assoc]
  · refine (decodeKVD_reads .cbcd).of_iff fun i e => ?_
    cases i <;> simp [Instr.wellFormed, encode, and_assoc]
  · refine (decodeKNO_reads .ctri).of_iff fun i e => ?_
    cases i <;> simp [Instr.wellFormed, encode, and_assoc]
  · refine (decodeOD_reads .ctrr).of_iff fun i e => ?_
    cases i <;> simp [Instr.wellFormed, encode, and_assoc]

/-- Any other byte 0 is refused, whatever follows (R61 case 2, R62). -/
theorem decode_of_not_isOpcode {opc : Byte} (h : ¬IsOpcode opc) (b : Bytes) :
    decode (opc :: b) = .error .reservedOpcode := by
  rw [isOpcode_iff] at h
  simp_all [decode]

/-- A packet is an opcode byte and operand bytes. -/
theorem encode_eq_cons (i : Instr) : ∃ opc e, IsOpcode opc ∧ encode i = opc :: e := by
  cases i <;> exact ⟨_, _, ⟨by decide, by decide⟩, rfl⟩

/-- The packet of a command and what follows it: the command if nothing does (R61 case 4). -/
theorem decode_encode_append {i : Instr} (h : i.wellFormed = true) (rest : Bytes) :
    decode (encode i ++ rest) = finishPacket i rest := by
  obtain ⟨opc, e, hopc, henc⟩ := encode_eq_cons i
  rw [henc]
  exact (decode_reads_of_isOpcode hopc).dec_append ⟨h, henc⟩ rest

/-- Settles O3: a packet with nothing behind it. -/
theorem decodeOfEncodeIsTheCommand : Obligations.DecodeOfEncodeIsTheCommand := by
  intro i h
  simpa [finishPacket] using decode_encode_append h []

/-- Bytes behind a packet make it illegal (R61 case 4). -/
theorem decode_encode_append_of_ne_nil {i : Instr} (h : i.wellFormed = true) {rest : Bytes} (hrest : rest ≠ []) :
    decode (encode i ++ rest) = .error .trailingBytes := by
  obtain ⟨d, rest, rfl⟩ := List.exists_cons_of_ne_nil hrest
  exact decode_encode_append h (d :: rest)

/-- The five kinds of byte string, each with its verdict: empty, with a reserved opcode, the packet of a command, such a
packet with more behind it, and a proper beginning of such a packet (R61). -/
inductive Verdict : Bytes → Except DecodeError Instr → Prop where
  | empty : Verdict [] (.error .emptyPacket)
  | reserved {opc : Byte} (hopc : ¬IsOpcode opc) (b : Bytes) : Verdict (opc :: b) (.error .reservedOpcode)
  | legal {i : Instr} (hwf : i.wellFormed = true) : Verdict (encode i) (.ok i)
  | trailing {i : Instr} {ext : Bytes} (hwf : i.wellFormed = true) (hext : ext ≠ []) :
    Verdict (encode i ++ ext) (.error .trailingBytes)
  | truncated {p ext : Bytes} {i : Instr} (hp : p ≠ []) (hwf : i.wellFormed = true) (hext : ext ≠ [])
    (henc : encode i = p ++ ext) : Verdict p (.error .truncated)

/-- The decoder's verdict on every byte string. -/
theorem decode_verdict (p : Bytes) : Verdict p (decode p) := by
  cases p with
  | nil => exact .empty
  | cons opc b =>
    by_cases hopc : IsOpcode opc
    · rcases (decode_reads_of_isOpcode hopc).whole_or_broken b with
        ⟨i, e, rest, ⟨hwf, henc⟩, rfl⟩ | ⟨hdec, i, _, ext, ⟨hwf, henc⟩, hext, rfl⟩
      · rw [← List.cons_append, ← henc]
        by_cases hrest : rest = []
        · rw [hrest, List.append_nil, decodeOfEncodeIsTheCommand i hwf]
          exact .legal hwf
        · rw [decode_encode_append_of_ne_nil hwf hrest]
          exact .trailing hwf hrest
      · rw [show decode (opc :: b) = .error .truncated from hdec]
        exact .truncated (List.cons_ne_nil opc b) hwf hext henc
    · rw [decode_of_not_isOpcode hopc]
      exact .reserved hopc b

/-- A byte string on which the decoder says `v` is of the kind that has the verdict `v`. -/
theorem verdict_of_decode {p : Bytes} {v : Except DecodeError Instr} (h : decode p = v) : Verdict p v :=
  h ▸ decode_verdict p

/-- Settles O4: only a packet has the verdict `ok`, and for its own command. -/
theorem encodeOfDecodeIsThePacket : Obligations.EncodeOfDecodeIsThePacket := by
  intro p i hdec
  cases verdict_of_decode hdec with
  | legal hwf => exact ⟨hwf, rfl⟩

/-- Settles O5, by running the decoder on each packet. -/
theorem workedPacketsDecode : Obligations.WorkedPacketsDecode :=
  ⟨by decide, by decide, by decide, by decide, by decide, by decide⟩

/-! ### The verdicts -/

/-- The bytes of a legal packet, and the command it carries (R56, R61, R64). -/
theorem decode_eq_ok_iff {p : Bytes} {i : Instr} : decode p = .ok i ↔ i.wellFormed = true ∧ encode i = p :=
  ⟨encodeOfDecodeIsThePacket p i, fun ⟨hwf, henc⟩ => henc ▸ decodeOfEncodeIsTheCommand i hwf⟩

/-- No legal packet is a proper beginning of another (R61 case 4). -/
theorem decode_append_of_ok {q ext : Bytes} {i : Instr} (h : decode q = .ok i) (hext : ext ≠ []) :
    decode (q ++ ext) = .error .trailingBytes := by
  obtain ⟨hwf, rfl⟩ := decode_eq_ok_iff.mp h
  exact decode_encode_append_of_ne_nil hwf hext

/-- R61 case 1. -/
theorem decode_eq_emptyPacket_iff {p : Bytes} : decode p = .error .emptyPacket ↔ p = [] := by
  constructor
  · intro hdec
    cases verdict_of_decode hdec with
    | empty => rfl
  · rintro rfl
    rfl

/-- R61 case 2. -/
theorem decode_eq_reservedOpcode_iff {p : Bytes} :
    decode p = .error .reservedOpcode ↔ ∃ opc b, p = opc :: b ∧ ¬IsOpcode opc := by
  constructor
  · intro hdec
    cases verdict_of_decode hdec with
    | reserved hopc b => exact ⟨_, b, rfl, hopc⟩
  · rintro ⟨opc, b, rfl, hopc⟩
    exact decode_of_not_isOpcode hopc b

/-- R61 case 3. A byte string that a continuation makes legal is not yet legal, has nothing behind a legal packet, and has
a good opcode: what is left is that it breaks off. -/
theorem decode_eq_truncated_iff {p : Bytes} :
    decode p = .error .truncated ↔ p ≠ [] ∧ ∃ ext i, ext ≠ [] ∧ decode (p ++ ext) = .ok i := by
  constructor
  · intro hdec
    cases verdict_of_decode hdec with
    | truncated hp hwf hext henc => exact ⟨hp, _, _, hext, decode_eq_ok_iff.mpr ⟨hwf, henc⟩⟩
  · rintro ⟨hp, ext, i, hext, hlegal⟩
    cases hdec : decode p with
    | ok j => cases hlegal.symm.trans (decode_append_of_ok hdec hext)
    | error e =>
      cases verdict_of_decode hdec with
      | empty => exact absurd rfl hp
      | reserved hopc b => cases hlegal.symm.trans (decode_of_not_isOpcode hopc (b ++ ext))
      | @trailing j mid hwf hmid =>
        rw [List.append_assoc] at hlegal
        cases hlegal.symm.trans (decode_encode_append_of_ne_nil hwf (List.append_ne_nil_of_left_ne_nil hmid ext))
      | truncated => rfl

/-- R61 case 4. -/
theorem decode_eq_trailingBytes_iff {p : Bytes} :
    decode p = .error .trailingBytes ↔ ∃ q ext i, p = q ++ ext ∧ ext ≠ [] ∧ decode q = .ok i := by
  constructor
  · intro hdec
    cases verdict_of_decode hdec with
    | trailing hwf hext => exact ⟨_, _, _, rfl, hext, decodeOfEncodeIsTheCommand _ hwf⟩
  · rintro ⟨q, ext, i, rfl, hext, hq⟩
    exact decode_append_of_ok hq hext

/-- Settles O2: the four verdicts, and the step on a packet that has one of them. -/
theorem illegalPacketExactlyWhen : Obligations.IllegalPacketExactlyWhen := by
  intro p
  refine ⟨decode_eq_emptyPacket_iff, decode_eq_reservedOpcode_iff, decode_eq_truncated_iff,
    decode_eq_trailingBytes_iff, fun hillegal s rest hin => ?_⟩
  cases hdec : decode p with
  | ok i => exact absurd hdec (hillegal i)
  | error e => exact step_of_decode_error hin hdec

end Sys2Proof.Laws
end

section
/-! SUPPORT. The response (spec R60, R160): its bytes determine it, and a command adds one with a status of its row of the
opcode table and a payload of the length R60 gives it. -/

namespace Sys2Proof.Laws

open Sys2Proof.Machine Sys2Proof.Claims

/-! ### The bytes of a response -/

/-- The status a code stands for (R160); codes that are never produced are read as `IllegalCommand`. -/
def statusOfCode (c : Byte) : Status :=
  match c.toNat with
  | 0 => .ok
  | 1 => .invalidKeyLength
  | 2 => .invalidBufferLength
  | 3 => .formatMismatch
  | 4 => .unsupportedOffsetAlignment
  | 5 => .noCursor
  | _ => .illegalCommand

theorem statusOfCode_code (st : Status) : statusOfCode st.code = st := by cases st <;> rfl

/-- Different statuses have different codes (R160). -/
theorem status_code_injective : Function.Injective Status.code :=
  Function.LeftInverse.injective statusOfCode_code

/-- Codes `07` to `FF` are never produced (R160). -/
theorem status_code_le (st : Status) : st.code.toNat ≤ 6 := by cases st <;> decide

/-- The status is the first byte, and the payload follows four bytes of length. -/
theorem response_encode_injective : Function.Injective Response.encode := by
  rintro ⟨st1, x1⟩ ⟨st2, x2⟩ h
  obtain ⟨hcode, hbody⟩ := List.cons.inj h
  obtain ⟨-, hpayload⟩ := List.append_inj hbody (by simp)
  obtain rfl : st1 = st2 := status_code_injective hcode
  obtain rfl : x1 = x2 := hpayload
  rfl

/-- Settles O6. -/
theorem responseBytesDetermineResponse : Obligations.ResponseBytesDetermineResponse :=
  ⟨⟨rfl, rfl, rfl, rfl, rfl, rfl, rfl⟩, fun r => ⟨rfl, status_code_le r.status⟩,
    fun _ _ _ _ h => response_encode_injective h⟩

/-! ### The length of a payload -/

@[simp] theorem xtsBlocks_length (c : BlockCipher) (k1 t : Bytes16) (xs : List Bytes16) :
    (xtsBlocks c k1 t xs).length = xs.length := by
  induction xs generalizing t with
  | nil => rfl
  | cons x xs ih => exact congrArg (· + 1) (ih _)

@[simp] theorem xtsSectorDec_length (c : BlockCipher) (k1 k2 : Bytes16) (sector : SectorIndex) (xs : List Bytes16) :
    (xtsSectorDec c k1 k2 sector xs).length = xs.length :=
  xtsBlocks_length ..

/-- n sectors of 32 blocks, as far as there are blocks (R87). -/
theorem xtsSectors_length (c : BlockCipher) (k1 k2 : Bytes16) (n : Nat) (sector : SectorIndex) (xs : List Bytes16) :
    (xtsSectors c k1 k2 n sector xs).length = min (32 * n) xs.length := by
  induction n generalizing sector xs with
  | zero => simp [xtsSectors]
  | succ n ih =>
    simp only [xtsSectors, List.length_append, xtsSectorDec_length, ih, List.length_take, List.length_drop]
    omega

/-- An area call gives as many bytes as the whole sectors of the buffer hold (R87). -/
theorem xtsAreaDec_length (c : BlockCipher) (k1 k2 : Bytes16) (start : SectorIndex) (data : Bytes) :
    (xtsAreaDec c k1 k2 start data).length = 512 * (data.length / 512) := by
  rw [xtsAreaDec, ofBlocks_length, xtsSectors_length, toBlocks_length]
  omega

/-- The two regions of the header are 1024 and 2048 bytes (R101). -/
theorem xtsRegions_length (c : BlockCipher) (key : BytesN 32) {data : Bytes} (h : data.length = 3072) :
    (xtsFirstRegion c key data ++ xtsSecondRegion c key data).length = 3072 := by
  rw [List.length_append, xtsFirstRegion, xtsSecondRegion, xtsAreaDec_length, xtsAreaDec_length,
    slice_length (by omega), slice_length (by omega)]

@[simp] theorem cbcBlocks_length (c : BlockCipher) (key prev : Bytes16) (xs : List Bytes16) :
    (cbcBlocks c key prev xs).length = xs.length := by
  induction xs generalizing prev with
  | nil => rfl
  | cons x xs ih => exact congrArg (· + 1) (ih _)

@[simp] theorem ctrChunks_length (c : BlockCipher) (key : Bytes16) (o : ByteOffset) (i : Nat) (ctr : Bytes16)
    (xs : List Bytes16) : (ctrChunks c key o i ctr xs).2.length = xs.length := by
  induction xs generalizing i ctr with
  | nil => rfl
  | cons x xs ih => exact congrArg (· + 1) (ih _ _)

/-- The chunks and the tail of a read are as long as the data (R126, R128). -/
theorem ctrRead_length (c : BlockCipher) (key : Bytes16) (o : ByteOffset) (ctr : Bytes16) (data : Bytes) :
    (ofBlocks (ctrChunks c key o 0 ctr (toBlocks data)).2 ++ data.drop (16 * (data.length / 16))).length =
      data.length := by
  simp only [List.length_append, ofBlocks_length, ctrChunks_length, toBlocks_length, List.length_drop]
  omega

/-! ### The response of a command -/

/-- The command, where it goes on, adds one response, with a status the opcode table lists for it and the payload length R60
gives it. -/
def AddsListed (i : Instr) (s : State) (out : Host.Outcome State Fault Refusal) : Prop :=
  ∀ t, out = .next t → ∃ r, t.responses = s.responses ++ [r] ∧ r.status ∈ listedStatuses i ∧
    r.payload.length = (if r.status = .ok then okPayloadLength i else 0)

/-- A listed error, which has no payload (R171). -/
theorem addsListed_error {i : Instr} {s : State} {e : Status} (he : e ∈ listedStatuses i ∧ e ≠ .ok) :
    AddsListed i s (.next (respond e [] s)) := by
  obtain ⟨hlisted, hne⟩ := he
  rintro _ ⟨⟩
  exact ⟨⟨e, []⟩, rfl, hlisted, by simp [hne]⟩

/-- `OK`, which is listed for every command, whatever was written of `CUR` before the answer. -/
theorem addsListed_ok {i : Instr} {s u : State} {x : Bytes} (hu : u.responses = s.responses)
    (hx : x.length = okPayloadLength i) : AddsListed i s (.next (respond .ok x u)) := by
  rintro _ ⟨⟩
  exact ⟨⟨.ok, x⟩, by simp [hu], by cases i <;> exact List.mem_cons_self, by simp [hx]⟩

theorem execXtshWith_addsListed (p : Params) (key data : Bytes) (s : State) :
    AddsListed (.xtsh key data) s (execXtshWith p key data s) := by
  rcases execXtshWith_cases p key data s with ⟨-, heq⟩ | ⟨-, -, heq⟩ | ⟨k, -, hdata, ⟨-, heq⟩ | ⟨-, heq⟩⟩ <;> rw [heq]
  · exact addsListed_error (by simp [listedStatuses])
  · exact addsListed_error (by simp [listedStatuses])
  · exact addsListed_error (by simp [listedStatuses])
  · exact addsListed_ok rfl (xtsRegions_length p.cipher k hdata)

theorem execEcbdWith_addsListed (p : Params) (key block : Bytes) (s : State) :
    AddsListed (.ecbd key block) s (execEcbdWith p key block s) := by
  rcases execEcbdWith_cases p key block s with ⟨-, heq⟩ | ⟨-, -, heq⟩ | ⟨k, x, -, -, heq⟩ <;> rw [heq]
  · exact addsListed_error (by simp [listedStatuses])
  · exact addsListed_error (by simp [listedStatuses])
  · exact addsListed_ok rfl (p.cipher.D k x).property

theorem execCbcdWith_addsListed (p : Params) (key iv region : Bytes) (s : State) :
    AddsListed (.cbcd key iv region) s (execCbcdWith p key iv region s) := by
  rcases execCbcdWith_cases p key iv region s with ⟨-, heq⟩ | ⟨-, -, heq⟩ | ⟨k, v, -, -, hregion, heq⟩ <;> rw [heq]
  · exact addsListed_error (by simp [listedStatuses])
  · exact addsListed_error (by simp [listedStatuses])
  · exact addsListed_ok rfl (by simp [hregion, okPayloadLength])

theorem execCtri_addsListed (key nonce : Bytes) (o : ByteOffset) (s : State) :
    AddsListed (.ctri key nonce o) s (execCtri key nonce o s) := by
  rcases execCtri_cases key nonce o s with ⟨-, heq⟩ | ⟨-, -, heq⟩ | ⟨k, n, -, -, heq⟩ <;> rw [heq]
  · exact addsListed_error (by simp [listedStatuses])
  · exact addsListed_error (by simp [listedStatuses])
  · exact addsListed_ok rfl rfl

theorem execCtrrWith_addsListed (p : Params) (o : ByteOffset) (data : Bytes) (s : State) :
    AddsListed (.ctrr o data) s (execCtrrWith p o data s) := by
  rcases execCtrrWith_cases p o data s with ⟨-, heq⟩ | ⟨-, -, -, heq⟩ | ⟨key, ctr, -, -, heq⟩ | ⟨-, -, heq⟩ <;> rw [heq]
  · exact addsListed_error (by simp [listedStatuses])
  · exact addsListed_error (by simp [listedStatuses])
  · exact addsListed_ok rfl (ctrRead_length p.cipher key o ctr data)
  · rintro _ ⟨⟩

/-- Under any parameters, each command by its own meaning. -/
theorem execWith_addsListed (p : Params) (i : Instr) (s : State) : AddsListed i s (execWith p i s) := by
  cases i with
  | xtsh key data => exact execXtshWith_addsListed p key data s
  | ecbd key block => exact execEcbdWith_addsListed p key block s
  | cbcd key iv region => exact execCbcdWith_addsListed p key iv region s
  | ctri key nonce o => exact execCtri_addsListed key nonce o s
  | ctrr o data => exact execCtrrWith_addsListed p o data s

/-- Settles O29: what is pending stays, and each command's response is a listed one. -/
theorem oneListedResponsePerCommand : Obligations.OneListedResponsePerCommand := by
  intro i s t h
  rw [exec_eq_execWith] at h
  obtain ⟨hinputs, -⟩ := execWith_interface h
  exact ⟨hinputs, execWith_addsListed Config.params i s t h⟩

end Sys2Proof.Laws
end

section
/-! SUPPORT. The primitives as integers and bits (spec 40_primitives.md): the bytes of a big-endian encoding, `TWEAK` and
`SUFFIX56` by the bits they show (R82, R88), and `MULALPHA` as doubling of a little-endian integer (R84). -/

namespace Sys2Proof.Laws

open Sys2Proof.Machine

/-! ### Big-endian encodings by their bytes -/

/-- Byte i of `BE_n(x)` is the i-th from the most significant (R9, R32). -/
theorem beBytes_getElem? {n i : Nat} (x : Nat) (h : i < n) :
    (beBytes n x)[i]? = some (BitVec.ofNat 8 (x >>> (8 * (n - 1 - i)))) := by
  induction n generalizing i with
  | zero => omega
  | succ n ih =>
    cases i with
    | zero => rfl
    | succ i =>
      have hplace : n + 1 - 1 - (i + 1) = n - 1 - i := by omega
      rw [beBytes, List.getElem?_cons_succ, ih (by omega), hplace]

/-- Settles O10: byte i of `BE_16` is the index shifted right by `8 * (15 - i)` bits. -/
theorem tweakIsBigEndian : Obligations.TweakIsBigEndian :=
  fun sector _ hi => beBytes_getElem? sector.toNat hi

/-! ### The suffix -/

/-- The reduction modulo 2^56 of R88 is the one `BE_7` makes anyway. -/
theorem suffix56_val (o : ByteOffset) : (suffix56 o).val = beBytes 7 (o.toNat >>> 4) :=
  beBytes_mod 7 _

/-- The suffix depends on the block number modulo 2^56 alone (R88). -/
theorem suffix56_congr {o o' : ByteOffset} (h : o.toNat / 16 % 2 ^ 56 = o'.toNat / 16 % 2 ^ 56) :
    suffix56 o = suffix56 o' := by
  simp only [suffix56, Nat.shiftRight_eq_div_pow]
  exact congrArg (beN 7) h

/-- Byte i of the suffix by its bits in the offset (R88). -/
theorem suffix56_getElem? (o : ByteOffset) {i : Nat} (hi : i < 7) :
    (suffix56 o).val[i]? = some (o.extractLsb' (4 + 8 * (6 - i)) 8) := by
  rw [suffix56_val, beBytes_getElem? _ hi, ← Nat.shiftRight_add]
  rfl

/-- The low four bits of the offset do not enter (R88, R129). -/
theorem suffix56_sub_mod (o : ByteOffset) : suffix56 o = suffix56 (o - o % 16) := by
  apply suffix56_congr
  have hle : o % 16 ≤ o := BitVec.le_def.mpr (by rw [BitVec.toNat_umod]; exact Nat.mod_le _ _)
  have h16 : (16 : ByteOffset).toNat = 16 := rfl
  rw [BitVec.toNat_sub_of_le hle, BitVec.toNat_umod, h16]
  omega

/-- The high four bits of the offset do not enter (R88, R131). -/
theorem suffix56_add_mul (o : ByteOffset) (m : Nat) : suffix56 o = suffix56 (o + BitVec.ofNat 64 (m * 2 ^ 60)) := by
  apply suffix56_congr
  rw [BitVec.toNat_add, BitVec.toNat_ofNat]
  omega

/-- Settles O18. -/
theorem suffixIsBits59To4 : Obligations.SuffixIsBits59To4 :=
  ⟨fun o _ hi => suffix56_getElem? o hi, suffix56_sub_mod, suffix56_add_mul⟩

/-! ### Doubling -/

/-- A little-endian integer of n bytes is below 256^n. -/
theorem leNat_lt (b : Bytes) : leNat b < 256 ^ b.length := by
  induction b with
  | nil => simp [leNat]
  | cons d b ih =>
    have hd : d.toNat < 256 := d.isLt
    rw [leNat, List.length_cons, Nat.pow_succ]
    omega

/-- A byte shifted left by one, with a bit coming in at the bottom and the top bit going out. -/
theorem toNat_shiftIn (d : Byte) (carry : Bool) :
    ((d <<< 1) + (if carry then 0x01 else 0x00)).toNat + 256 * d.msb.toNat = 2 * d.toNat + carry.toNat := by
  have hd : d.toNat < 256 := d.isLt
  by_cases hmsb : 128 ≤ d.toNat <;> cases carry <;>
    simp [BitVec.toNat_add, BitVec.toNat_shiftLeft, Nat.shiftLeft_eq, BitVec.msb_eq_decide, hmsb] <;> omega

/-- The loop of `MULALPHA` doubles the integer: what leaves at the last byte is the top bit (R84). -/
theorem leNat_shiftBytes (carry : Bool) (b : Bytes) :
    leNat (shiftBytes carry b).1 + 256 ^ b.length * (shiftBytes carry b).2.toNat = 2 * leNat b + carry.toNat := by
  induction b generalizing carry with
  | nil => simp [shiftBytes, leNat]
  | cons d b ih =>
    have hbyte := toNat_shiftIn d carry
    have hrest := ih d.msb
    simp only [shiftBytes, leNat, List.length_cons, Nat.pow_succ]
    linear_combination hbyte + 256 * hrest

/-- `xor` into byte 0 is `xor` of the integer (R34, R84). -/
theorem leNat_xor_head (d e : Byte) (b : Bytes) : leNat ((d ^^^ e) :: b) = leNat (d :: b) ^^^ e.toNat := by
  have hd : d.toNat < 2 ^ 8 := d.isLt
  have he : e.toNat < 2 ^ 8 := e.isLt
  have hlow : (leNat (d :: b) ^^^ e.toNat) % 2 ^ 8 = (d ^^^ e).toNat := by
    rw [Nat.xor_mod_two_pow, leNat, BitVec.toNat_xor, Nat.mod_eq_of_lt he]
    congr 1
    omega
  have hhigh : (leNat (d :: b) ^^^ e.toNat) / 2 ^ 8 = leNat b := by
    rw [Nat.xor_div_two_pow, Nat.div_eq_of_lt he, Nat.xor_zero, leNat]
    omega
  rw [← Nat.mod_add_div (leNat (d :: b) ^^^ e.toNat) (2 ^ 8), hlow, hhigh]
  rfl

/-- The reduction of a buffer that has a byte 0 (R84). -/
theorem leNat_reduceAlpha {b : Bytes} (h : b ≠ []) (top : Bool) :
    leNat (reduceAlpha (b, top)) = if top then leNat b ^^^ 0x87 else leNat b := by
  obtain ⟨d, b, rfl⟩ := List.exists_cons_of_ne_nil h
  cases top with
  | false => rfl
  | true => exact leNat_xor_head d 0x87 b

/-- Settles O11: the loop doubles, what leaves it is the bit of 2^127, and the feedback follows that bit. -/
theorem mulAlphaIsDoublingInTheField : Obligations.MulAlphaIsDoublingInTheField := by
  rintro ⟨b, hb⟩
  have hne : (shiftBytes false b).1 ≠ [] := List.ne_nil_of_length_pos (by rw [shiftBytes_length, hb]; decide)
  have hlt : leNat b < 2 ^ 128 := by simpa [hb] using leNat_lt b
  have hltShift : leNat (shiftBytes false b).1 < 2 ^ 128 := by simpa [hb] using leNat_lt (shiftBytes false b).1
  have hshift : leNat (shiftBytes false b).1 + 2 ^ 128 * (shiftBytes false b).2.toNat = 2 * leNat b := by
    simpa [hb] using leNat_shiftBytes false b
  have hdouble : leNat (shiftBytes false b).1 = 2 * leNat b % 2 ^ 128 := by omega
  have htop : (shiftBytes false b).2 = true ↔ 2 ^ 127 ≤ leNat b := by
    rw [← Bool.toNat_eq_one]
    omega
  have hreduce := leNat_reduceAlpha hne (shiftBytes false b).2
  rw [hdouble] at hreduce
  simp only [htop] at hreduce
  exact hreduce

end Sys2Proof.Laws
end

section
/-! SUPPORT. The block modes (spec R86, R87, R116): buffers as lists of blocks, the area call sector by sector, and each
decryption as the inverse of the reference encryptor of 95_test_vectors.md part 2, under the contract of R80. -/

namespace Sys2Proof.Laws

open Sys2Proof.Machine

/-! ### Buffers of whole blocks -/

/-- The blocks of what a list of blocks tiles are that list (R36). -/
@[simp] theorem toBlocks_ofBlocks (xs : List Bytes16) : toBlocks (ofBlocks xs) = xs := by
  have hcount : (ofBlocks xs).length / 16 = xs.length := by rw [ofBlocks_length]; omega
  have h := takeBlocks_ofBlocks xs []
  rwa [List.append_nil, ← hcount] at h

/-- A buffer of whole blocks is tiled by blocks (R36). -/
theorem exists_ofBlocks {b : Bytes} {n : Nat} (h : b.length = 16 * n) :
    ∃ xs : List Bytes16, xs.length = n ∧ ofBlocks xs = b :=
  ⟨toBlocks b, by rw [toBlocks_length]; omega, by rw [ofBlocks_toBlocks]; exact List.take_of_length_le (by omega)⟩

/-! ### The contract of the cipher -/

/-- Settles O43: the cipher is a permutation and its inverse. -/
theorem openCipherMeetsTheContract : Obligations.OpenCipherMeetsTheContract :=
  ⟨fun k x => (Config.permutation k).symm_apply_apply x, fun k y => (Config.permutation k).apply_symm_apply y⟩

/-! ### The area call -/

/-- The area call on a buffer given by its blocks (R87). -/
theorem xtsAreaDec_ofBlocks (c : BlockCipher) (k1 k2 : Bytes16) (start : SectorIndex) {n : Nat} {xs : List Bytes16}
    (h : xs.length = 32 * n) : xtsAreaDec c k1 k2 start (ofBlocks xs) = ofBlocks (xtsSectors c k1 k2 n start xs) := by
  have hcount : (ofBlocks xs).length / 512 = n := by rw [ofBlocks_length]; omega
  rw [xtsAreaDec, toBlocks_ofBlocks, hcount]

/-- The sector loop over two runs of sectors is the loop over the first and then over the second, from the index the
first run reaches (R87). -/
theorem xtsSectors_append (c : BlockCipher) (k1 k2 : Bytes16) (n m : Nat) (start : SectorIndex) (xs ys : List Bytes16)
    (h : xs.length = 32 * n) :
    xtsSectors c k1 k2 (n + m) start (xs ++ ys) =
      xtsSectors c k1 k2 n start xs ++ xtsSectors c k1 k2 m (start + BitVec.ofNat 128 n) ys := by
  induction n generalizing start xs with
  | zero =>
    obtain rfl : xs = [] := List.length_eq_zero_iff.mp h
    simp [xtsSectors]
  | succ n ih =>
    have hindex : start + BitVec.ofNat 128 (n + 1) = start + 1 + BitVec.ofNat 128 n := by
      rw [Nat.add_comm, BitVec.ofNat_add, ← BitVec.add_assoc]
      rfl
    have htake : (xs ++ ys).take 32 = xs.take 32 := List.take_append_of_le_length (by omega)
    have hdrop : (xs ++ ys).drop 32 = xs.drop 32 ++ ys := List.drop_append_of_le_length (by omega)
    rw [Nat.succ_add, xtsSectors, xtsSectors, htake, hdrop, ih (start + 1) (xs.drop 32) (by simp [h]; omega), hindex,
      List.append_assoc]

/-- Settles O9: the sector loop splits at any sector, and whole sectors keep their length. -/
theorem areaCallAdvancesTheSectorIndex : Obligations.AreaCallAdvancesTheSectorIndex := by
  intro c k1 k2 start n m a b ha hb
  obtain ⟨xs, hxs, rfl⟩ := exists_ofBlocks (show a.length = 16 * (32 * n) by omega)
  obtain ⟨ys, hys, rfl⟩ := exists_ofBlocks (show b.length = 16 * (32 * m) by omega)
  have hall : (xs ++ ys).length = 32 * (n + m) := by rw [List.length_append]; omega
  constructor
  · rw [← ofBlocks_append, xtsAreaDec_ofBlocks c k1 k2 start hall, xtsAreaDec_ofBlocks c k1 k2 start hxs,
      xtsAreaDec_ofBlocks c k1 k2 _ hys, xtsSectors_append c k1 k2 n m start xs ys hxs, ofBlocks_append]
  · rw [xtsAreaDec_length]
    omega

/-! ### Decryption undoes the reference encryptors -/

@[simp] theorem xtsBlocksEnc_length (c : BlockCipher) (k1 t : Bytes16) (xs : List Bytes16) :
    (xtsBlocksEnc c k1 t xs).length = xs.length := by
  induction xs generalizing t with
  | nil => rfl
  | cons x xs ih => exact congrArg (· + 1) (ih _)

theorem xtsSectorsEnc_length (c : BlockCipher) (k1 k2 : Bytes16) (n : Nat) (sector : SectorIndex) (xs : List Bytes16) :
    (xtsSectorsEnc c k1 k2 n sector xs).length = min (32 * n) xs.length := by
  induction n generalizing sector xs with
  | zero => simp [xtsSectorsEnc]
  | succ n ih =>
    simp only [xtsSectorsEnc, List.length_append, xtsBlocksEnc_length, ih, List.length_take, List.length_drop]
    omega

/-- An area encryption gives as many bytes as the whole sectors of the buffer hold. -/
theorem xtsAreaEnc_length (c : BlockCipher) (k1 k2 : Bytes16) (start : SectorIndex) (data : Bytes) :
    (xtsAreaEnc c k1 k2 start data).length = 512 * (data.length / 512) := by
  rw [xtsAreaEnc, ofBlocks_length, xtsSectorsEnc_length, toBlocks_length]
  omega

@[simp] theorem cbcBlocksEnc_length (c : BlockCipher) (key prev : Bytes16) (xs : List Bytes16) :
    (cbcBlocksEnc c key prev xs).length = xs.length := by
  induction xs generalizing prev with
  | nil => rfl
  | cons x xs ih => exact congrArg (· + 1) (ih _)

section RoundTrip

variable {c : BlockCipher} (hc : c.Lawful)
include hc

/-- Block by block: both whitenings cancel and `D` undoes `E` (R80, R86). -/
theorem xtsBlocks_xtsBlocksEnc (k1 t : Bytes16) (xs : List Bytes16) :
    xtsBlocks c k1 t (xtsBlocksEnc c k1 t xs) = xs := by
  obtain ⟨hDE, -⟩ := hc
  induction xs generalizing t with
  | nil => rfl
  | cons x xs ih => simp only [xtsBlocksEnc, xtsBlocks, xorBlock_cancel, hDE, ih]

/-- Sector by sector: the tweaks are the same, since both directions encrypt the sector index (R86, R87). -/
theorem xtsSectors_xtsSectorsEnc (k1 k2 : Bytes16) (n : Nat) (sector : SectorIndex) (xs : List Bytes16)
    (h : xs.length = 32 * n) : xtsSectors c k1 k2 n sector (xtsSectorsEnc c k1 k2 n sector xs) = xs := by
  induction n generalizing sector xs with
  | zero => exact (List.length_eq_zero_iff.mp h).symm
  | succ n ih =>
    have hsector : (xtsBlocksEnc c k1 (c.E k2 (tweak sector)) (xs.take 32)).length = 32 := by simp [h]
    rw [xtsSectorsEnc, xtsSectors, List.take_left' hsector, List.drop_left' hsector, xtsSectorDec,
      xtsBlocks_xtsBlocksEnc hc, ih (sector + 1) (xs.drop 32) (by simp [h]; omega), List.take_append_drop]

/-- Area call by area call, on whole sectors. -/
theorem xtsAreaDec_xtsAreaEnc (k1 k2 : Bytes16) (start : SectorIndex) {n : Nat} {data : Bytes}
    (h : data.length = 512 * n) : xtsAreaDec c k1 k2 start (xtsAreaEnc c k1 k2 start data) = data := by
  obtain ⟨xs, hxs, rfl⟩ := exists_ofBlocks (show data.length = 16 * (32 * n) by omega)
  have hcount : (ofBlocks xs).length / 512 = n := by omega
  have henc : (xtsSectorsEnc c k1 k2 n start xs).length = 32 * n := by rw [xtsSectorsEnc_length]; omega
  rw [xtsAreaEnc, toBlocks_ofBlocks, hcount, xtsAreaDec_ofBlocks c k1 k2 start henc,
    xtsSectors_xtsSectorsEnc hc k1 k2 n start xs hxs]

/-- Block by block: the ciphertext block made is the one the next block is chained to in both directions (R116). -/
theorem cbcBlocks_cbcBlocksEnc (key prev : Bytes16) (xs : List Bytes16) :
    cbcBlocks c key prev (cbcBlocksEnc c key prev xs) = xs := by
  obtain ⟨hDE, -⟩ := hc
  induction xs generalizing prev with
  | nil => rfl
  | cons x xs ih => simp only [cbcBlocksEnc, cbcBlocks, hDE, xorBlock_cancel, ih]

end RoundTrip

/-! ### XTSH -/

/-- The data sub-key is the first half of the key (R83). -/
theorem xtsDataKey_of_val {k : BytesN 32} {k1 k2 : Bytes16} (h : k.val = k1.val ++ k2.val) : xtsDataKey k = k1 := by
  apply Subtype.ext
  simp [xtsDataKey, sliceN, h, k1.property]

/-- The tweak sub-key is the second half of the key (R83). -/
theorem xtsTweakKey_of_val {k : BytesN 32} {k1 k2 : Bytes16} (h : k.val = k1.val ++ k2.val) : xtsTweakKey k = k2 := by
  apply Subtype.ext
  simp [xtsTweakKey, sliceN, h, k1.property, k2.property]

/-- The first of two adjoining parts. -/
theorem slice_append_left {a b : Bytes} {n : Nat} (h : a.length = n) : slice (a ++ b) 0 n = a := by
  simp [slice, ← h]

/-- The second of two adjoining parts. -/
theorem slice_append_right {a b : Bytes} {n m : Nat} (ha : a.length = n) (hb : b.length = m - n) :
    slice (a ++ b) n m = b := by
  rw [slice, List.drop_left' ha, List.take_of_length_le hb.le]

/-- A buffer is its two parts. -/
theorem slice_append_slice {b : Bytes} {n m : Nat} (h : b.length = m) : slice b 0 n ++ slice b n m = b := by
  rw [slice, slice, List.drop_zero, Nat.sub_zero, List.take_of_length_le (i := m - n) (by simp [h]),
    List.take_append_drop]

/-- A slice of a first part is that slice of the whole. -/
theorem slice_slice_zero {b : Bytes} {lo hi n : Nat} (h : hi ≤ n) : slice (slice b 0 n) lo hi = slice b lo hi := by
  simp only [slice, List.drop_zero, Nat.sub_zero, List.drop_take, List.take_take]
  congr 1
  omega

theorem xtsHeaderEnc_length (c : BlockCipher) (k1 k2 : Bytes16) {plain : Bytes} (h : plain.length = 3072) :
    (xtsHeaderEnc c k1 k2 plain).length = 3072 := by
  rw [xtsHeaderEnc, List.length_append, xtsAreaEnc_length, xtsAreaEnc_length, slice_length (by omega),
    slice_length (by omega)]

section Header

variable {c : BlockCipher} {k : BytesN 32} {k1 k2 : Bytes16} {plain : Bytes}

/-- The first area call on an encrypted header (R101 step 1). -/
theorem xtsFirstRegion_xtsHeaderEnc (hc : c.Lawful) (hk : k.val = k1.val ++ k2.val) (h : plain.length = 3072) :
    xtsFirstRegion c k (xtsHeaderEnc c k1 k2 plain) = slice plain 0 1024 := by
  have hlength : (slice plain 0 1024).length = 512 * 2 := slice_length (by omega)
  rw [xtsFirstRegion, xtsHeaderEnc, slice_append_left (by rw [xtsAreaEnc_length, hlength]), xtsDataKey_of_val hk,
    xtsTweakKey_of_val hk, xtsAreaDec_xtsAreaEnc hc k1 k2 0 hlength]

/-- The second area call on an encrypted header (R101 step 3). -/
theorem xtsSecondRegion_xtsHeaderEnc (hc : c.Lawful) (hk : k.val = k1.val ++ k2.val) (h : plain.length = 3072) :
    xtsSecondRegion c k (xtsHeaderEnc c k1 k2 plain) = slice plain 1024 3072 := by
  have hfirst : (slice plain 0 1024).length = 512 * 2 := slice_length (by omega)
  have hsecond : (slice plain 1024 3072).length = 512 * 4 := slice_length (by omega)
  rw [xtsSecondRegion, xtsHeaderEnc,
    slice_append_right (by rw [xtsAreaEnc_length, hfirst]) (by rw [xtsAreaEnc_length, hsecond]),
    xtsDataKey_of_val hk, xtsTweakKey_of_val hk, xtsAreaDec_xtsAreaEnc hc k1 k2 2 hsecond]

end Header

/-- Under any parameters whose cipher meets the contract, XTSH undoes `XTS_HDR_ENC` on a header that shows `MAGIC`. -/
theorem execXtshWith_xtsHeaderEnc {p : Params} (hc : p.cipher.Lawful) (s : State) (k1 k2 : Bytes16) {plain : Bytes}
    (hlength : plain.length = 3072) (hmagic : slice plain 512 516 = p.magic.val) :
    execXtshWith p (k1.val ++ k2.val) (xtsHeaderEnc p.cipher k1 k2 plain) s = .next (respond .ok plain s) := by
  have henc := xtsHeaderEnc_length p.cipher k1 k2 hlength
  rcases execXtshWith_cases p (k1.val ++ k2.val) (xtsHeaderEnc p.cipher k1 k2 plain) s with
    ⟨hkey, -⟩ | ⟨-, hdata, -⟩ | ⟨k, hk, -, hregions⟩
  · simp [k1.property, k2.property] at hkey
  · exact absurd henc hdata
  · rw [xtsFirstRegion_xtsHeaderEnc hc hk hlength, xtsSecondRegion_xtsHeaderEnc hc hk hlength,
      slice_slice_zero (by omega), slice_append_slice hlength] at hregions
    obtain ⟨hmismatch, -⟩ | ⟨-, heq⟩ := hregions
    · exact absurd hmagic hmismatch
    · exact heq

/-- Settles O8: the machine's cipher meets the contract. -/
theorem xtshUndoesTheReferenceEncryptor : Obligations.XtshUndoesTheReferenceEncryptor :=
  fun s k1 k2 _ hlength hmagic =>
    (exec_eq_execWith _ s).trans
      (execXtshWith_xtsHeaderEnc (p := Config.params) openCipherMeetsTheContract s k1 k2 hlength hmagic)

/-! ### CBCD -/

/-- Under any parameters whose cipher meets the contract, CBCD undoes `CBC_ENC` on a region of seven blocks. -/
theorem execCbcdWith_cbcEnc {p : Params} (hc : p.cipher.Lawful) (s : State) (key iv : Bytes16) {plain : Bytes}
    (hlength : plain.length = 112) :
    execCbcdWith p key.val iv.val (cbcEnc p.cipher key iv plain) s = .next (respond .ok plain s) := by
  obtain ⟨xs, hxs, rfl⟩ := exists_ofBlocks (show plain.length = 16 * 7 from hlength)
  have henc : cbcEnc p.cipher key iv (ofBlocks xs) = ofBlocks (cbcBlocksEnc p.cipher key iv xs) := by
    rw [cbcEnc, toBlocks_ofBlocks]
  rw [henc]
  rcases execCbcdWith_cases p key.val iv.val (ofBlocks (cbcBlocksEnc p.cipher key iv xs)) s with
    ⟨hkey, -⟩ | ⟨-, hiv | hregion, -⟩ | ⟨k, v, hk, hv, -, heq⟩
  · exact absurd key.property hkey
  · exact absurd iv.property hiv
  · simp [hxs] at hregion
  · obtain rfl : k = key := Subtype.ext hk
    obtain rfl : v = iv := Subtype.ext hv
    rw [heq, toBlocks_ofBlocks, cbcBlocks_cbcBlocksEnc hc]

/-- Settles O15: the machine's cipher meets the contract. -/
theorem cbcdUndoesTheReferenceEncryptor : Obligations.CbcdUndoesTheReferenceEncryptor :=
  fun s key iv _ hlength =>
    (exec_eq_execWith _ s).trans
      (execCbcdWith_cbcEnc (p := Config.params) openCipherMeetsTheContract s key iv hlength)

end Sys2Proof.Laws
end

section
/-! SUPPORT. XTSH block by block (spec 41_xts_header.md): the two area calls are one call over sectors 0 to 5, each of whose
blocks has the closed form of R86. -/

namespace Sys2Proof.Laws

open Sys2Proof.Machine Sys2Proof.Claims

/-! ### One block of a buffer -/

/-- Block j of what a list of blocks tiles is its j-th block (R9, R36). -/
theorem blockAt_ofBlocks {xs : List Bytes16} {j : Nat} {x : Bytes16} (h : xs[j]? = some x) :
    blockAt (ofBlocks xs) j = x.val := by
  obtain ⟨hj, rfl⟩ := List.getElem?_eq_some_iff.mp h
  have hlength : (ofBlocks (xs.take j)).length = 16 * j := by rw [ofBlocks_length, List.length_take]; omega
  have hsplit : ofBlocks xs = ofBlocks (xs.take j) ++ (xs[j].val ++ ofBlocks (xs.drop (j + 1))) := by
    rw [← ofBlocks_cons, List.cons_getElem_drop_succ, ← ofBlocks_append, List.take_append_drop]
  rw [hsplit, blockAt, slice, List.drop_left' hlength, Nat.add_sub_cancel_left, List.take_left' xs[j].property]

/-- The first n bytes of block j. -/
theorem take_blockAt (b : Bytes) (j : Nat) {n : Nat} (h : n ≤ 16) :
    (blockAt b j).take n = slice b (16 * j) (16 * j + n) := by
  rw [blockAt, slice, slice, List.take_take, Nat.add_sub_cancel_left, Nat.add_sub_cancel_left, Nat.min_eq_left h]

/-- A slice inside the first of two parts. -/
theorem slice_append_of_le {a b : Bytes} {lo hi : Nat} (h : hi ≤ a.length) : slice (a ++ b) lo hi = slice a lo hi := by
  have hparts : slice (a ++ b) 0 a.length = a := slice_append_left rfl
  rw [← slice_slice_zero h, hparts]

/-! ### One block of an area -/

/-- The decryption of one block under the tweak `t`: whitened, through `D`, whitened (R86). -/
def xtsBlockDec (c : BlockCipher) (k1 t x : Bytes16) : Bytes16 := xorBlock (c.D k1 (xorBlock x t)) t

/-- The closed form of the statements is the decryption of the block under its tweak. -/
theorem headerBlockDec_eq (c : BlockCipher) (k1 k2 : Bytes16) (b : Nat) (x : Bytes16) :
    headerBlockDec c k1 k2 b x =
      xtsBlockDec c k1 (mulAlpha^[b % 32] (c.E k2 (tweak (BitVec.ofNat 128 (b / 32))))) x := rfl

/-- The block loop reaches block i with the tweak advanced i times (R86). -/
theorem xtsBlocks_getElem? (c : BlockCipher) (k1 t : Bytes16) (xs : List Bytes16) (i : Nat) :
    (xtsBlocks c k1 t xs)[i]? = xs[i]?.map (xtsBlockDec c k1 (mulAlpha^[i] t)) := by
  induction xs generalizing t i with
  | nil => rfl
  | cons x xs ih =>
    cases i with
    | zero => rfl
    | succ i => exact ih (mulAlpha t) i

/-- The sector loop reaches block b in sector b div 32 after the first one, at place b mod 32 (R87). -/
theorem xtsSectors_getElem? (c : BlockCipher) (k1 k2 : Bytes16) {n : Nat} (start : SectorIndex) {xs : List Bytes16}
    (h : xs.length = 32 * n) (b : Nat) :
    (xtsSectors c k1 k2 n start xs)[b]? =
      xs[b]?.map (xtsBlockDec c k1 (mulAlpha^[b % 32] (c.E k2 (tweak (start + BitVec.ofNat 128 (b / 32)))))) := by
  induction n generalizing start xs b with
  | zero =>
    obtain rfl : xs = [] := List.length_eq_zero_iff.mp h
    rfl
  | succ n ih =>
    have hsector : (xtsSectorDec c k1 k2 start (xs.take 32)).length = 32 := by simp [h]
    rw [xtsSectors]
    by_cases hb : b < 32
    · rw [List.getElem?_append_left (by omega), xtsSectorDec, xtsBlocks_getElem?, List.getElem?_take_of_lt hb,
        Nat.mod_eq_of_lt hb, Nat.div_eq_of_lt hb, BitVec.add_zero]
    · obtain ⟨b, rfl⟩ := Nat.exists_eq_add_of_le (Nat.le_of_not_lt hb)
      have hindex : start + BitVec.ofNat 128 ((32 + b) / 32) = start + 1 + BitVec.ofNat 128 (b / 32) := by
        rw [Nat.add_div_left b (by decide), Nat.add_comm, BitVec.ofNat_add, ← BitVec.add_assoc]
        rfl
      rw [List.getElem?_append_right (by omega), hsector, Nat.add_sub_cancel_left,
        ih (start + 1) (by rw [List.length_drop]; omega), List.getElem?_drop, Nat.add_mod_left, hindex]

/-! ### The header -/

section HeaderBlocks

variable (c : BlockCipher) {k : BytesN 32} {k1 k2 : Bytes16} {data : Bytes}

/-- "The net effect": the two area calls are one from sector 0 over the whole header (R101). -/
theorem xtsRegions_eq_xtsAreaDec (hk : k.val = k1.val ++ k2.val) (h : data.length = 3072) :
    xtsFirstRegion c k data ++ xtsSecondRegion c k data = xtsAreaDec c k1 k2 0 data := by
  obtain ⟨hsplit, -⟩ := areaCallAdvancesTheSectorIndex c k1 k2 0 2 4 (slice data 0 1024) (slice data 1024 3072)
    (slice_length (by omega)) (slice_length (by omega))
  rw [slice_append_slice h] at hsplit
  rw [xtsFirstRegion, xtsSecondRegion, xtsDataKey_of_val hk, xtsTweakKey_of_val hk, hsplit]
  rfl

/-- Each of the 192 blocks of the decrypted header has its closed form (R86, R101). -/
theorem blockAt_xtsRegions (hk : k.val = k1.val ++ k2.val) (h : data.length = 3072) {b : Nat} (hb : b < 192)
    {x : Bytes16} (hx : x.val = blockAt data b) :
    blockAt (xtsFirstRegion c k data ++ xtsSecondRegion c k data) b = (headerBlockDec c k1 k2 b x).val := by
  rw [xtsRegions_eq_xtsAreaDec c hk h]
  obtain ⟨xs, hxs, rfl⟩ := exists_ofBlocks (show data.length = 16 * (32 * 6) from h)
  have hblock : xs[b]? = some xs[b] := List.getElem?_eq_getElem (by omega)
  have hval : x = xs[b] := Subtype.ext (hx.trans (blockAt_ofBlocks hblock))
  rw [xtsAreaDec_ofBlocks c k1 k2 0 hxs]
  apply blockAt_ofBlocks
  rw [xtsSectors_getElem? c k1 k2 0 hxs, hblock, Option.map_some, hval, headerBlockDec_eq, zero_add]

/-- The bytes compared with `MAGIC` are the first four of decrypted block 32 (R102). -/
theorem slice_xtsFirstRegion_magic (hk : k.val = k1.val ++ k2.val) (h : data.length = 3072) {m : Bytes16}
    (hm : m.val = blockAt data 32) :
    slice (xtsFirstRegion c k data) 512 516 = (headerBlockDec c k1 k2 32 m).val.take 4 := by
  have hfirst : (xtsFirstRegion c k data).length = 1024 := by
    rw [xtsFirstRegion, xtsAreaDec_length, slice_length (by omega)]
  rw [← blockAt_xtsRegions c hk h (by decide) hm, take_blockAt _ _ (by decide), slice_append_of_le (by omega)]

end HeaderBlocks

/-! ### The answers of XTSH -/

/-- The key's length is checked first (R103). -/
theorem execXtshWith_of_key_length_ne (p : Params) (s : State) {key : Bytes} (data : Bytes) (h : key.length ≠ 32) :
    execXtshWith p key data s = .next (respond .invalidKeyLength [] s) := by
  rcases execXtshWith_cases p key data s with ⟨-, heq⟩ | ⟨hkey, -⟩ | ⟨k, rfl, -⟩
  · exact heq
  · exact absurd hkey h
  · exact absurd k.property h

/-- The data's length is checked next (R103). -/
theorem execXtshWith_of_data_length_ne (p : Params) (s : State) {key data : Bytes} (hkey : key.length = 32)
    (h : data.length ≠ 3072) : execXtshWith p key data s = .next (respond .invalidBufferLength [] s) := by
  rcases execXtshWith_cases p key data s with ⟨hne, -⟩ | ⟨-, -, heq⟩ | ⟨-, -, hdata, -⟩
  · exact absurd hkey hne
  · exact heq
  · exact absurd hdata h

/-- With both lengths right, decrypted block 32 decides between the mismatch and the decrypted header (R102, R103). -/
theorem execXtshWith_of_lengths (p : Params) (s : State) (k1 k2 : Bytes16) {m : Bytes16} {data : Bytes}
    (h : data.length = 3072) (hm : m.val = blockAt data 32) :
    ∃ k : BytesN 32, k.val = k1.val ++ k2.val ∧
      execXtshWith p (k1.val ++ k2.val) data s = .next
        (if (headerBlockDec p.cipher k1 k2 32 m).val.take 4 = p.magic.val then
          respond .ok (xtsFirstRegion p.cipher k data ++ xtsSecondRegion p.cipher k data) s
        else respond .formatMismatch [] s) := by
  rcases execXtshWith_cases p (k1.val ++ k2.val) data s with ⟨hkey, -⟩ | ⟨-, hdata, -⟩ | ⟨k, hk, -, hmagic⟩
  · simp [k1.property, k2.property] at hkey
  · exact absurd h hdata
  · refine ⟨k, hk, ?_⟩
    rw [slice_xtsFirstRegion_magic p.cipher hk h hm] at hmagic
    obtain ⟨hne, heq⟩ | ⟨hmatch, heq⟩ := hmagic
    · rw [heq, if_neg hne]
    · rw [heq, if_pos hmatch]

/-- Settles O7: the checks in their order, and the closed form of every block. -/
theorem xtshAnswersByItsAlgorithm : Obligations.XtshAnswersByItsAlgorithm := by
  intro s
  simp only [exec_eq_execWith]
  refine ⟨fun key data hkey => ?_, fun key data hkey hdata => ?_, fun k1 k2 m data hdata hm hne => ?_,
    fun k1 k2 m data hdata hm hmatch => ?_⟩
  · exact execXtshWith_of_key_length_ne Config.params s data hkey
  · exact execXtshWith_of_data_length_ne Config.params s hkey hdata
  · obtain ⟨k, -, heq⟩ := execXtshWith_of_lengths Config.params s k1 k2 hdata hm
    exact heq.trans (congrArg _ (if_neg hne))
  · obtain ⟨k, hk, heq⟩ := execXtshWith_of_lengths Config.params s k1 k2 hdata hm
    exact ⟨_, heq.trans (congrArg _ (if_pos hmatch)), xtsRegions_length Config.cipher k hdata,
      fun b x hb hx => blockAt_xtsRegions Config.cipher hk hdata hb hx⟩

end Sys2Proof.Laws
end

section
/-! SUPPORT. The answers of ECBD (spec 42_ecb.md): the two size checks in their order, then `D` of the block and nothing
else. -/

namespace Sys2Proof.Laws

open Sys2Proof.Machine

/-- The key's length is checked first (R112). -/
theorem execEcbdWith_of_key_length_ne (p : Params) (s : State) {key : Bytes} (block : Bytes) (h : key.length ≠ 16) :
    execEcbdWith p key block s = .next (respond .invalidKeyLength [] s) := by
  rcases execEcbdWith_cases p key block s with ⟨-, heq⟩ | ⟨hkey, -⟩ | ⟨k, -, rfl, -⟩
  · exact heq
  · exact absurd hkey h
  · exact absurd k.property h

/-- The block's length is checked next (R112). -/
theorem execEcbdWith_of_block_length_ne (p : Params) (s : State) {key block : Bytes} (hkey : key.length = 16)
    (h : block.length ≠ 16) : execEcbdWith p key block s = .next (respond .invalidBufferLength [] s) := by
  rcases execEcbdWith_cases p key block s with ⟨hne, -⟩ | ⟨-, -, heq⟩ | ⟨-, x, -, rfl, -⟩
  · exact absurd hkey hne
  · exact heq
  · exact absurd x.property h

/-- With both lengths right, the payload is `D(key, block)` (R111). -/
theorem execEcbdWith_of_lengths (p : Params) (s : State) (key block : Bytes16) :
    execEcbdWith p key.val block.val s = .next (respond .ok (p.cipher.D key block).val s) := by
  rcases execEcbdWith_cases p key.val block.val s with ⟨hkey, -⟩ | ⟨-, hblock, -⟩ | ⟨k, x, hk, hx, heq⟩
  · exact absurd key.property hkey
  · exact absurd block.property hblock
  · obtain rfl : k = key := Subtype.ext hk
    obtain rfl : x = block := Subtype.ext hx
    exact heq

/-- Settles O12: the checks in their order, and the one block. -/
theorem ecbdAnswersByItsAlgorithm : Obligations.EcbdAnswersByItsAlgorithm := by
  intro s
  simp only [exec_eq_execWith]
  refine ⟨fun key block hkey => ?_, fun key block hkey hblock => ?_, fun key block => ?_⟩
  · exact execEcbdWith_of_key_length_ne Config.params s block hkey
  · exact execEcbdWith_of_block_length_ne Config.params s hkey hblock
  · exact execEcbdWith_of_lengths Config.params s key block

end Sys2Proof.Laws
end

section
/-! SUPPORT. CBCD (spec 43_cbc.md): its answers in the order of the checks, the closed form of R116 for each plaintext block,
and what that form says of two regions or two IVs (R118). -/

namespace Sys2Proof.Laws

open Sys2Proof.Machine Sys2Proof.Claims

/-! ### One block of a buffer -/

/-- A block inside the buffer is whole. -/
theorem blockAt_length {b : Bytes} {j : Nat} (h : 16 * j + 16 ≤ b.length) : (blockAt b j).length = 16 := by
  rw [blockAt, slice_length h, Nat.add_sub_cancel_left]

/-- A block inside the buffer, its length carried with it. -/
theorem exists_val_eq_blockAt {b : Bytes} {j : Nat} (h : 16 * j + 16 ≤ b.length) :
    ∃ x : Bytes16, x.val = blockAt b j :=
  ⟨⟨blockAt b j, blockAt_length h⟩, rfl⟩

/-! ### Exclusive-or -/

/-- Exclusive-or does not depend on the grouping. -/
theorem xorBytes_assoc (a b d : Bytes) : xorBytes (xorBytes a b) d = xorBytes a (xorBytes b d) := by
  induction a generalizing b d with
  | nil => rfl
  | cons x a ih =>
    cases b with
    | nil => rfl
    | cons y b =>
      cases d with
      | nil => rfl
      | cons z d => exact congrArg₂ List.cons (BitVec.xor_assoc x y z) (ih b d)

/-- What both sides are combined with cancels. -/
theorem xorBytes_cancel_common {a m : Bytes} (b : Bytes) (h : a.length = m.length) :
    xorBytes (xorBytes m a) (xorBytes m b) = xorBytes a b := by
  rw [xorBytes_comm m a, ← xorBytes_assoc, xorBytes_cancel h]

/-- Combining with one mask keeps different byte strings different. -/
theorem xorBytes_right_cancel {a b m : Bytes} (ha : a.length = m.length) (hb : b.length = m.length)
    (h : xorBytes a m = xorBytes b m) : a = b := by
  rw [← xorBytes_cancel ha, h, xorBytes_cancel hb]

/-! ### The contract of the cipher -/

/-- Under the contract of R80 different blocks decrypt to different blocks. -/
theorem lawful_decrypt_injective {c : BlockCipher} (hc : c.Lawful) (key : Bytes16) : Function.Injective (c.D key) := by
  obtain ⟨-, hED⟩ := hc
  exact Function.LeftInverse.injective (hED key)

/-! ### The closed form -/

/-- The payload CBCD answers with: the block loop over the region's blocks (R116). -/
def cbcDec (c : BlockCipher) (key iv : Bytes16) (region : Bytes) : Bytes :=
  ofBlocks (cbcBlocks c key iv (toBlocks region))

/-- What block j is chained to: the IV, then the ciphertext block before it (R116). -/
def cbcPrev (iv : Bytes16) (region : Bytes) (j : Nat) : Bytes :=
  if j = 0 then iv.val else blockAt region (j - 1)

@[simp] theorem cbcPrev_zero (iv : Bytes16) (region : Bytes) : cbcPrev iv region 0 = iv.val := rfl

@[simp] theorem cbcPrev_succ (iv : Bytes16) (region : Bytes) (j : Nat) :
    cbcPrev iv region (j + 1) = blockAt region j := rfl

/-- Each block is chained to 16 bytes. -/
theorem cbcPrev_length (iv : Bytes16) {region : Bytes} {j : Nat} (h : 16 * j ≤ region.length) :
    (cbcPrev iv region j).length = 16 := by
  cases j with
  | zero => rw [cbcPrev_zero, iv.property]
  | succ j => rw [cbcPrev_succ, blockAt_length h]

/-- Where two regions agree but in block k, block j is chained to the same bytes unless it follows block k. -/
theorem cbcPrev_congr (iv : Bytes16) {r1 r2 : Bytes} {k : Nat}
    (hagree : ∀ j, j < 7 → j ≠ k → blockAt r1 j = blockAt r2 j) {j : Nat} (hj : j < 7) (hne : j ≠ k + 1) :
    cbcPrev iv r1 j = cbcPrev iv r2 j := by
  cases j with
  | zero => rfl
  | succ j => rw [cbcPrev_succ, cbcPrev_succ, hagree j (by omega) (by omega)]

/-- What a block after the first is chained to does not depend on the IV. -/
theorem cbcPrev_of_pos (iv1 iv2 : Bytes16) (region : Bytes) {j : Nat} (h : 0 < j) :
    cbcPrev iv1 region j = cbcPrev iv2 region j := by
  rw [cbcPrev, cbcPrev, if_neg h.ne', if_neg h.ne']

/-- The payload is as long as the region's whole blocks. -/
theorem cbcDec_length (c : BlockCipher) (key iv : Bytes16) (region : Bytes) :
    (cbcDec c key iv region).length = 16 * (region.length / 16) := by
  rw [cbcDec, ofBlocks_length, cbcBlocks_length, toBlocks_length]

/-- The plaintext blocks do not depend on each other: the loop pairs each ciphertext block with the one before it in the
list that starts with the IV (R116). -/
theorem cbcBlocks_eq_zipWith (c : BlockCipher) (key iv : Bytes16) (xs : List Bytes16) :
    cbcBlocks c key iv xs = List.zipWith (fun x prev => xorBlock (c.D key x) prev) xs (iv :: xs) := by
  induction xs generalizing iv with
  | nil => rfl
  | cons x xs ih => exact congrArg (xorBlock (c.D key x) iv :: ·) (ih x)

/-- In the list that starts with the IV, place j holds what block j is chained to. -/
theorem exists_cons_getElem?_eq_cbcPrev (iv : Bytes16) {xs : List Bytes16} {j : Nat} (h : j < xs.length) :
    ∃ prev : Bytes16, (iv :: xs)[j]? = some prev ∧ prev.val = cbcPrev iv (ofBlocks xs) j := by
  cases j with
  | zero => exact ⟨iv, rfl, rfl⟩
  | succ j =>
    have hblock : xs[j]? = some xs[j] := List.getElem?_eq_getElem (by omega)
    exact ⟨xs[j], hblock, (blockAt_ofBlocks hblock).symm⟩

/-- Plaintext block j is `D` of ciphertext block j combined with what that block is chained to (R116). -/
theorem blockAt_cbcDec (c : BlockCipher) (key iv : Bytes16) {region : Bytes} (h : region.length = 112) {j : Nat}
    (hj : j < 7) {x : Bytes16} (hx : x.val = blockAt region j) :
    blockAt (cbcDec c key iv region) j = xorBytes (c.D key x).val (cbcPrev iv region j) := by
  obtain ⟨xs, hxs, rfl⟩ := exists_ofBlocks (show region.length = 16 * 7 from h)
  have hlt : j < xs.length := by omega
  have hval : x = xs[j] := Subtype.ext (hx.trans (blockAt_ofBlocks (List.getElem?_eq_getElem hlt)))
  obtain ⟨prev, hprev, hprevVal⟩ := exists_cons_getElem?_eq_cbcPrev iv hlt
  have hloop : (cbcBlocks c key iv xs)[j]? = some (xorBlock (c.D key x) prev) := by
    rw [cbcBlocks_eq_zipWith, List.getElem?_zipWith, List.getElem?_eq_getElem hlt, hprev, hval]
  rw [cbcDec, toBlocks_ofBlocks, blockAt_ofBlocks hloop, xorBlock_val, hprevVal]

/-! ### Two decryptions under one key -/

section TwoDecryptions

variable (c : BlockCipher) (key : Bytes16) {iv1 iv2 : Bytes16} {r1 r2 : Bytes} {j : Nat}
variable (h1 : r1.length = 112) (h2 : r2.length = 112) (hj : j < 7)
include h1 h2 hj

/-- A plaintext block depends on its ciphertext block and on what that is chained to alone (R116). -/
theorem blockAt_cbcDec_congr (hblock : blockAt r1 j = blockAt r2 j) (hprev : cbcPrev iv1 r1 j = cbcPrev iv2 r2 j) :
    blockAt (cbcDec c key iv1 r1) j = blockAt (cbcDec c key iv2 r2) j := by
  obtain ⟨x, hx⟩ := exists_val_eq_blockAt (show 16 * j + 16 ≤ r1.length by omega)
  rw [blockAt_cbcDec c key iv1 h1 hj hx, blockAt_cbcDec c key iv2 h2 hj (hx.trans hblock), hprev]

/-- Where only what the block is chained to differs, the plaintext differs in exactly the same bits (R118). -/
theorem xorBytes_blockAt_cbcDec (hblock : blockAt r1 j = blockAt r2 j) :
    xorBytes (blockAt (cbcDec c key iv1 r1) j) (blockAt (cbcDec c key iv2 r2) j) =
      xorBytes (cbcPrev iv1 r1 j) (cbcPrev iv2 r2 j) := by
  obtain ⟨x, hx⟩ := exists_val_eq_blockAt (show 16 * j + 16 ≤ r1.length by omega)
  rw [blockAt_cbcDec c key iv1 h1 hj hx, blockAt_cbcDec c key iv2 h2 hj (hx.trans hblock)]
  exact xorBytes_cancel_common _ ((cbcPrev_length iv1 (by omega)).trans (c.D key x).property.symm)

/-- Where only the ciphertext block differs, the plaintext block differs, since `D` is injective (R118). -/
theorem blockAt_cbcDec_ne (hc : c.Lawful) (hblock : blockAt r1 j ≠ blockAt r2 j)
    (hprev : cbcPrev iv1 r1 j = cbcPrev iv2 r2 j) :
    blockAt (cbcDec c key iv1 r1) j ≠ blockAt (cbcDec c key iv2 r2) j := by
  obtain ⟨x1, hx1⟩ := exists_val_eq_blockAt (show 16 * j + 16 ≤ r1.length by omega)
  obtain ⟨x2, hx2⟩ := exists_val_eq_blockAt (show 16 * j + 16 ≤ r2.length by omega)
  have hlength : (cbcPrev iv2 r2 j).length = 16 := cbcPrev_length iv2 (by omega)
  rw [blockAt_cbcDec c key iv1 h1 hj hx1, blockAt_cbcDec c key iv2 h2 hj hx2, hprev]
  intro heq
  have hD : c.D key x1 = c.D key x2 := Subtype.ext
    (xorBytes_right_cancel ((c.D key x1).property.trans hlength.symm) ((c.D key x2).property.trans hlength.symm) heq)
  obtain rfl : x1 = x2 := lawful_decrypt_injective hc key hD
  exact hblock (hx1.symm.trans hx2)

end TwoDecryptions

/-! ### The answers of CBCD -/

/-- The key's length is checked first (R117). -/
theorem execCbcdWith_of_key_length_ne (p : Params) (s : State) {key : Bytes} (iv region : Bytes)
    (h : key.length ≠ 16) : execCbcdWith p key iv region s = .next (respond .invalidKeyLength [] s) := by
  rcases execCbcdWith_cases p key iv region s with ⟨-, heq⟩ | ⟨hkey, -⟩ | ⟨k, -, rfl, -⟩
  · exact heq
  · exact absurd hkey h
  · exact absurd k.property h

/-- A wrong length of the IV or of the region is answered alike (R117). -/
theorem execCbcdWith_of_buffer_length_ne (p : Params) (s : State) {key iv region : Bytes} (hkey : key.length = 16)
    (h : iv.length ≠ 16 ∨ region.length ≠ 112) :
    execCbcdWith p key iv region s = .next (respond .invalidBufferLength [] s) := by
  rcases execCbcdWith_cases p key iv region s with ⟨hne, -⟩ | ⟨-, -, heq⟩ | ⟨-, v, -, rfl, hregion, -⟩
  · exact absurd hkey hne
  · exact heq
  · exact absurd h (not_or.mpr ⟨not_not.mpr v.property, not_not.mpr hregion⟩)

/-- With all lengths right, the payload is the decrypted region (R116). -/
theorem execCbcdWith_of_lengths (p : Params) (s : State) (key iv : Bytes16) {region : Bytes}
    (h : region.length = 112) :
    execCbcdWith p key.val iv.val region s = .next (respond .ok (cbcDec p.cipher key iv region) s) := by
  rcases execCbcdWith_cases p key.val iv.val region s with ⟨hkey, -⟩ | ⟨-, hiv | hregion, -⟩ | ⟨k, v, hk, hv, -, heq⟩
  · exact absurd key.property hkey
  · exact absurd iv.property hiv
  · exact absurd h hregion
  · obtain rfl : k = key := Subtype.ext hk
    obtain rfl : v = iv := Subtype.ext hv
    exact heq

/-- Settles O13: the checks in their order, and the closed form of every block. -/
theorem cbcdAnswersByItsAlgorithm : Obligations.CbcdAnswersByItsAlgorithm := by
  intro s
  simp only [exec_eq_execWith]
  refine ⟨fun key iv region hkey => ?_, fun key iv region hkey hiv => ?_, fun key iv region hkey _ hregion => ?_,
    fun key iv region hregion => ?_⟩
  · exact execCbcdWith_of_key_length_ne Config.params s iv region hkey
  · exact execCbcdWith_of_buffer_length_ne Config.params s hkey (.inl hiv)
  · exact execCbcdWith_of_buffer_length_ne Config.params s hkey (.inr hregion)
  · refine ⟨cbcDec Config.cipher key iv region, execCbcdWith_of_lengths Config.params s key iv hregion, ?_,
      fun j x prev hj hx hprev => ?_⟩
    · rw [cbcDec_length, hregion]
    · rw [blockAt_cbcDec Config.cipher key iv hregion hj hx, xorBlock_val, hprev, cbcPrev]

/-- Settles O14: a change of block k reaches block k through `D` and block k + 1 through the chaining, a change of the IV
reaches block 0 through the chaining. -/
theorem cbcdErrorPropagation : Obligations.CbcdErrorPropagation := by
  intro s key iv iv2 r1 r2 k h1 h2 hk hagree hdiffer
  simp only [exec_eq_execWith]
  refine ⟨cbcDec Config.cipher key iv r1, cbcDec Config.cipher key iv r2, cbcDec Config.cipher key iv2 r1,
    execCbcdWith_of_lengths Config.params s key iv h1, execCbcdWith_of_lengths Config.params s key iv h2,
    execCbcdWith_of_lengths Config.params s key iv2 h1, fun j hj hne hnext => ?_, ?_, fun hlast => ?_,
    fun j hpos hj => ?_, ?_⟩
  · exact blockAt_cbcDec_congr Config.cipher key h1 h2 hj (hagree j hj hne) (cbcPrev_congr iv hagree hj hnext)
  · exact blockAt_cbcDec_ne Config.cipher key h1 h2 hk openCipherMeetsTheContract hdiffer
      (cbcPrev_congr iv hagree hk (by omega))
  · exact xorBytes_blockAt_cbcDec Config.cipher key h1 h2 (by omega) (hagree (k + 1) (by omega) (by omega))
  · exact blockAt_cbcDec_congr Config.cipher key h1 h1 hj rfl (cbcPrev_of_pos iv iv2 r1 hpos)
  · exact xorBytes_blockAt_cbcDec Config.cipher key h1 h1 (by decide) rfl

end Sys2Proof.Laws
end

section
/-! SUPPORT. The chunk loop of CTRR in closed form (spec R124 to R126): the keystream block of each chunk, the counter block
after n chunks, and what the two say of counter blocks that agree in bytes 0 to 8, of adjoining reads and of offsets with one
suffix. -/

namespace Sys2Proof.Laws

open Sys2Proof.Machine Sys2Proof.Claims

/-! ### Offsets and suffixes -/

@[simp] theorem chunkOffset_zero (o : ByteOffset) : chunkOffset o 0 = o := by simp [chunkOffset]

/-- Chunk j counted from chunk m (R124). -/
@[simp] theorem chunkOffset_chunkOffset (o : ByteOffset) (m j : Nat) :
    chunkOffset (chunkOffset o m) j = chunkOffset o (m + j) := by
  simp only [chunkOffset, Nat.mul_add, BitVec.ofNat_add, BitVec.add_assoc]

/-- The suffix as the bytes of the block number (R88). -/
theorem suffix56_val_div (o : ByteOffset) : (suffix56 o).val = beBytes 7 (o.toNat / 16 % 2 ^ 56) := by
  rw [suffix56, beN_val, Nat.shiftRight_eq_div_pow]

/-- The suffix of a chunk's offset is the one the statements index by the chunk (R124, R125). -/
theorem suffix56_chunkOffset_val (o : ByteOffset) (i : Nat) : (suffix56 (chunkOffset o i)).val = chunkSuffix o i := by
  rw [suffix56_val_div, chunkSuffix, chunkOffset, BitVec.toNat_add, BitVec.toNat_ofNat, Nat.add_mod_mod]

/-- Offsets with one suffix have one block number modulo 2^56 (R88). -/
theorem suffix56_eq_iff {o o' : ByteOffset} :
    suffix56 o = suffix56 o' ↔ o.toNat / 16 % 2 ^ 56 = o'.toNat / 16 % 2 ^ 56 := by
  refine ⟨fun h => ?_, suffix56_congr⟩
  have hval := congrArg Subtype.val h
  rw [suffix56_val_div, suffix56_val_div] at hval
  exact beBytes_inj (Nat.mod_lt _ (by decide)) (Nat.mod_lt _ (by decide)) hval

/-- Offsets with one suffix have one suffix at every chunk: 16 bytes on are one block on. -/
theorem suffix56_chunkOffset_congr {o o' : ByteOffset} (h : suffix56 o = suffix56 o') (i : Nat) :
    suffix56 (chunkOffset o i) = suffix56 (chunkOffset o' i) := by
  rw [suffix56_eq_iff] at h ⊢
  simp only [chunkOffset, BitVec.toNat_add, BitVec.toNat_ofNat]
  omega

/-! ### The counter block -/

/-- Bytes 9 to 15 after the write (R125). -/
theorem setCounterLow_drop (ctr : Bytes16) (o : ByteOffset) : (setCounterLow ctr o).val.drop 9 = (suffix56 o).val :=
  List.drop_left' (by simp [ctr.property])

/-- Only the suffix of the offset is written. -/
theorem setCounterLow_congr_offset (ctr : Bytes16) {o o' : ByteOffset} (h : suffix56 o = suffix56 o') :
    setCounterLow ctr o = setCounterLow ctr o' := by
  simp only [setCounterLow, h]

/-- The counter block of chunk i as the statements write it (R125). -/
theorem setCounterLow_chunkOffset_val (ctr : Bytes16) (o : ByteOffset) (i : Nat) :
    (setCounterLow ctr (chunkOffset o i)).val = ctr.val.take 9 ++ chunkSuffix o i :=
  congrArg (ctr.val.take 9 ++ ·) (suffix56_chunkOffset_val o i)

/-- A later write of bytes 9 to 15 leaves nothing of an earlier one (R125). -/
@[simp] theorem setCounterLow_setCounterLow (ctr : Bytes16) (o o' : ByteOffset) :
    setCounterLow (setCounterLow ctr o) o' = setCounterLow ctr o' :=
  setCounterLow_congr (setCounterLow_take ctr o) o'

/-- `CUR.CTR` after a read of n chunks (R132). -/
def ctrAfter (ctr : Bytes16) (o : ByteOffset) : Nat → Bytes16
  | 0 => ctr
  | n + 1 => setCounterLow ctr (chunkOffset o n)

@[simp] theorem ctrAfter_zero (ctr : Bytes16) (o : ByteOffset) : ctrAfter ctr o 0 = ctr := rfl

@[simp] theorem ctrAfter_succ (ctr : Bytes16) (o : ByteOffset) (n : Nat) :
    ctrAfter ctr o (n + 1) = setCounterLow ctr (chunkOffset o n) := rfl

/-- A read writes bytes 9 to 15 alone (R132). -/
theorem ctrAfter_take (ctr : Bytes16) (o : ByteOffset) (n : Nat) : (ctrAfter ctr o n).val.take 9 = ctr.val.take 9 := by
  cases n with
  | zero => rfl
  | succ n => exact setCounterLow_take ctr _

/-- A read repeated leaves the counter block as the first left it. -/
theorem ctrAfter_idem (ctr : Bytes16) (o : ByteOffset) (n : Nat) : ctrAfter (ctrAfter ctr o n) o n = ctrAfter ctr o n := by
  cases n with
  | zero => rfl
  | succ n => exact setCounterLow_setCounterLow ctr _ _

/-- Two adjoining reads leave the counter block that one read over both leaves (R132). -/
theorem ctrAfter_ctrAfter (ctr : Bytes16) (o : ByteOffset) (m n : Nat) :
    ctrAfter (ctrAfter ctr o m) (chunkOffset o m) n = ctrAfter ctr o (m + n) := by
  cases n with
  | zero => rfl
  | succ n =>
    rw [ctrAfter_succ, setCounterLow_congr (ctrAfter_take ctr o m), chunkOffset_chunkOffset]
    rfl

/-- Offsets with one suffix leave the same counter block. -/
theorem ctrAfter_congr_offset (ctr : Bytes16) {o o' : ByteOffset} (h : suffix56 o = suffix56 o') (n : Nat) :
    ctrAfter ctr o n = ctrAfter ctr o' n := by
  cases n with
  | zero => rfl
  | succ n => exact setCounterLow_congr_offset ctr (suffix56_chunkOffset_congr h n)

/-! ### The keystream -/

/-- The keystream block of chunk i: `E` of the counter block with the chunk's suffix (R123, R125). -/
def keystream (c : BlockCipher) (key ctr : Bytes16) (o : ByteOffset) (i : Nat) : Bytes16 :=
  c.E key (setCounterLow ctr (chunkOffset o i))

/-- Bytes 0 to 8 of the counter block are all of it that enters (R130). -/
theorem keystream_congr (c : BlockCipher) (key : Bytes16) {c1 c2 : Bytes16} (h : c1.val.take 9 = c2.val.take 9)
    (o : ByteOffset) : keystream c key c1 o = keystream c key c2 o := by
  funext i
  rw [keystream, setCounterLow_congr h, keystream]

/-- The suffix of the offset is all of it that enters (R129, R131). -/
theorem keystream_congr_offset (c : BlockCipher) (key ctr : Bytes16) {o o' : ByteOffset} (h : suffix56 o = suffix56 o') :
    keystream c key ctr o = keystream c key ctr o' := by
  funext i
  rw [keystream, setCounterLow_congr_offset ctr (suffix56_chunkOffset_congr h i), keystream]

/-- The keystream from chunk m on (R124). -/
theorem keystream_chunkOffset (c : BlockCipher) (key ctr : Bytes16) (o : ByteOffset) (m i : Nat) :
    keystream c key ctr (chunkOffset o m) i = keystream c key ctr o (m + i) := by
  rw [keystream, chunkOffset_chunkOffset, keystream]

/-- Each chunk combined with its block of the keystream `ks` (R126). -/
def xorStream (ks : Nat → Bytes16) (xs : List Bytes16) : List Bytes16 := xs.mapIdx fun i x => xorBlock x (ks i)

@[simp] theorem xorStream_length (ks : Nat → Bytes16) (xs : List Bytes16) : (xorStream ks xs).length = xs.length :=
  List.length_mapIdx

theorem xorStream_cons (ks : Nat → Bytes16) (x : Bytes16) (xs : List Bytes16) :
    xorStream ks (x :: xs) = xorBlock x (ks 0) :: xorStream (fun i => ks (i + 1)) xs :=
  List.mapIdx_cons

theorem xorStream_getElem? (ks : Nat → Bytes16) (xs : List Bytes16) (i : Nat) :
    (xorStream ks xs)[i]? = xs[i]?.map (xorBlock · (ks i)) :=
  List.getElem?_mapIdx

/-- The second part of a stream is combined with the keystream from where it begins. -/
theorem xorStream_append (ks : Nat → Bytes16) (xs ys : List Bytes16) :
    xorStream ks (xs ++ ys) = xorStream ks xs ++ xorStream (fun i => ks (xs.length + i)) ys := by
  simp only [xorStream, List.mapIdx_append, Nat.add_comm]

/-- Combining twice with one keystream gives the chunks back (R127). -/
@[simp] theorem xorStream_xorStream (ks : Nat → Bytes16) (xs : List Bytes16) : xorStream ks (xorStream ks xs) = xs := by
  refine List.ext_getElem? fun i => ?_
  rw [xorStream_getElem?, xorStream_getElem?, Option.map_map]
  simp [Function.comp_def]

/-- The loop, which writes the counter block and reads it back chunk by chunk, in closed form (R123 to R126). -/
theorem ctrChunks_eq (c : BlockCipher) (key ctr : Bytes16) (o : ByteOffset) (i : Nat) (xs : List Bytes16) :
    ctrChunks c key o i ctr xs =
      (ctrAfter ctr (chunkOffset o i) xs.length, xorStream (keystream c key ctr (chunkOffset o i)) xs) := by
  induction xs generalizing i ctr with
  | nil => rfl
  | cons x xs ih =>
    have hnext : chunkOffset o (i + 1) = chunkOffset (chunkOffset o i) 1 := (chunkOffset_chunkOffset o i 1).symm
    have hcounter : ctrAfter (setCounterLow ctr (chunkOffset o i)) (chunkOffset o (i + 1)) xs.length =
        ctrAfter ctr (chunkOffset o i) (xs.length + 1) := by
      have hfirst : setCounterLow ctr (chunkOffset o i) = ctrAfter ctr (chunkOffset o i) 1 := by simp
      rw [hfirst, hnext, ctrAfter_ctrAfter, Nat.add_comm]
    have hstream : keystream c key (setCounterLow ctr (chunkOffset o i)) (chunkOffset o (i + 1)) =
        fun j => keystream c key ctr (chunkOffset o i) (j + 1) := by
      funext j
      rw [keystream_congr c key (setCounterLow_take ctr _), hnext, keystream_chunkOffset, Nat.add_comm]
    have hhead : keystream c key ctr (chunkOffset o i) 0 = c.E key (setCounterLow ctr (chunkOffset o i)) := by
      rw [keystream, chunkOffset_zero]
    simp only [ctrChunks, ih, hcounter, hstream, hhead, xorStream_cons, List.length_cons]

end Sys2Proof.Laws
end

section
/-! SUPPORT. The answers of CTRI (spec R121, R122): the two size checks in their order, then a cursor whose bytes 0 to 8 do not
depend on the offset. -/

namespace Sys2Proof.Laws

open Sys2Proof.Machine

/-- The key's length is checked first (R121). -/
theorem execCtri_of_key_length_ne {key : Bytes} (nonce : Bytes) (o : ByteOffset) (s : State) (h : key.length ≠ 16) :
    execCtri key nonce o s = .next (respond .invalidKeyLength [] s) := by
  rcases execCtri_cases key nonce o s with ⟨-, heq⟩ | ⟨hkey, -⟩ | ⟨k, -, rfl, -⟩
  · exact heq
  · exact absurd hkey h
  · exact absurd k.property h

/-- The nonce's length is checked next (R121). -/
theorem execCtri_of_nonce_length_ne {key nonce : Bytes} (o : ByteOffset) (s : State) (hkey : key.length = 16)
    (h : nonce.length ≠ 8) : execCtri key nonce o s = .next (respond .invalidBufferLength [] s) := by
  rcases execCtri_cases key nonce o s with ⟨hne, -⟩ | ⟨-, -, heq⟩ | ⟨-, n, -, rfl, -⟩
  · exact absurd hkey hne
  · exact heq
  · exact absurd n.property h

/-- With both lengths right, all of `CUR` is written (R121). -/
theorem execCtri_of_lengths (key : Bytes16) (nonce : BytesN 8) (o : ByteOffset) (s : State) :
    execCtri key.val nonce.val o s = .next (respond .ok [] (installCursor key (initialCounter nonce o) s)) := by
  rcases execCtri_cases key.val nonce.val o s with ⟨hkey, -⟩ | ⟨-, hnonce, -⟩ | ⟨k, n, hk, hn, heq⟩
  · exact absurd key.property hkey
  · exact absurd nonce.property hnonce
  · obtain rfl : k = key := Subtype.ext hk
    obtain rfl : n = nonce := Subtype.ext hn
    exact heq

/-- The counter block CTRI builds, byte string by byte string (R121). -/
theorem initialCounter_val (nonce : BytesN 8) (o : ByteOffset) :
    (initialCounter nonce o).val = nonce.val ++ [0x00] ++ beBytes 7 (o.toNat / 16 % 2 ^ 56) :=
  congrArg (nonce.val ++ [0x00] ++ ·) (suffix56_val_div o)

/-- The offset enters bytes 9 to 15 alone (R11, R122). -/
theorem initialCounter_take (nonce : BytesN 8) (o : ByteOffset) :
    (initialCounter nonce o).val.take 9 = nonce.val ++ [0x00] :=
  List.take_left' (by simp [nonce.property])

/-- Settles O16: the checks in their order, and the counter block. -/
theorem ctriAnswersByItsAlgorithm : Obligations.CtriAnswersByItsAlgorithm := by
  intro s
  refine ⟨fun key nonce o hkey => ?_, fun key nonce o hkey hnonce => ?_, fun key ctr nonce o hnonce hctr => ?_⟩
  · exact execCtri_of_key_length_ne nonce o s hkey
  · exact execCtri_of_nonce_length_ne o s hkey hnonce
  · obtain rfl : ctr = initialCounter ⟨nonce, hnonce⟩ o :=
      Subtype.ext (hctr.trans (initialCounter_val ⟨nonce, hnonce⟩ o).symm)
    exact execCtri_of_lengths key ⟨nonce, hnonce⟩ o s

/-- Cursors with one key and counter blocks that agree in bytes 0 to 8 (R17). -/
theorem sameButCounterLow_installCursor (key : Bytes16) {c1 c2 : Bytes16} (s : State)
    (h : c1.val.take 9 = c2.val.take 9) :
    SameButCounterLow (respond .ok [] (installCursor key c1 s)) (respond .ok [] (installCursor key c2 s)) :=
  ⟨rfl, rfl, congrArg some h, rfl, rfl⟩

/-- Two constructions that differ in the offset alone leave states that differ in `CTR_LO` alone (R122). -/
theorem execCtri_sameButCounterLow {key nonce : Bytes} {o1 o2 : ByteOffset} {s s1 s2 : State}
    (h1 : execCtri key nonce o1 s = .next s1) (h2 : execCtri key nonce o2 s = .next s2) : SameButCounterLow s1 s2 := by
  rcases execCtri_cases key nonce o1 s with ⟨hkey, heq⟩ | ⟨hkey, hnonce, heq⟩ | ⟨k, n, rfl, rfl, heq⟩
  · obtain rfl := next_unique h1 heq
    obtain rfl := next_unique h2 (execCtri_of_key_length_ne nonce o2 s hkey)
    exact ⟨rfl, rfl, rfl, rfl, rfl⟩
  · obtain rfl := next_unique h1 heq
    obtain rfl := next_unique h2 (execCtri_of_nonce_length_ne o2 s hkey hnonce)
    exact ⟨rfl, rfl, rfl, rfl, rfl⟩
  · obtain rfl := next_unique h1 heq
    obtain rfl := next_unique h2 (execCtri_of_lengths k n o2 s)
    exact sameButCounterLow_installCursor k s (by rw [initialCounter_take, initialCounter_take])

/-- Settles O17: `CTR_LO` is never observable, and the two constructions differ in nothing else. -/
theorem ctriOffsetIsUnobservable : Obligations.CtriOffsetIsUnobservable := by
  intro s s1 s2 t1 key nonce o1 o2 n h1 h2 hrun
  obtain ⟨t2, ht2, hsame⟩ := counterLowIsNeverObservable n s1 s2 t1 (execCtri_sameButCounterLow h1 h2) hrun
  obtain ⟨-, -, hresponses⟩ := sameButCounterLow_iff.mp hsame
  exact ⟨t2, ht2, hresponses.symm⟩

end Sys2Proof.Laws
end

section
/-! SUPPORT. CTRR (spec R123 to R132): every answer by the closed form of the chunk loop, and what that form says of a read of
a payload, of adjoining reads, of other offsets and of other cursors. -/

namespace Sys2Proof.Laws

open Sys2Proof.Machine Sys2Proof.Claims

/-! ### The read -/

/-- With a cursor present, CTRR's write of the counter block leaves the whole cursor known (R132). -/
theorem writeCounter_eq_installCursor {s : State} {key ctr : Bytes16} (hc : s.cur = ⟨true, some key, some ctr⟩)
    (c1 : Bytes16) : writeCounter c1 s = installCursor key c1 s := by
  simp only [writeCounter, installCursor, hc]

/-- Writing the cursor that is there changes nothing. -/
theorem installCursor_self {s : State} {key ctr : Bytes16} (hc : s.cur = ⟨true, some key, some ctr⟩) :
    installCursor key ctr s = s := by
  rw [← writeCounter_eq_installCursor hc, writeCounter_self (by rw [hc])]

/-- The cursor a read leaves (R132). -/
theorem respond_installCursor_cur (st : Status) (x : Bytes) (key ctr : Bytes16) (s : State) :
    (respond st x (installCursor key ctr s)).cur = ⟨true, some key, some ctr⟩ := rfl

/-- CTRR on this machine is CTRR at its parameters. -/
theorem exec_ctrr (o : ByteOffset) (data : Bytes) (s : State) :
    exec (.ctrr o data) s = execCtrrWith Config.params o data s :=
  exec_eq_execWith (.ctrr o data) s

/-- What a list of blocks tiles has that many blocks (R36). -/
theorem ofBlocks_length_div (xs : List Bytes16) : (ofBlocks xs).length / 16 = xs.length := by
  rw [← toBlocks_length, toBlocks_ofBlocks]

/-- The payload of a read: the whole chunks combined with the keystream, the tail as it came (R126, R128). -/
def ctrRead (c : BlockCipher) (key ctr : Bytes16) (o : ByteOffset) (data : Bytes) : Bytes :=
  ofBlocks (xorStream (keystream c key ctr o) (toBlocks data)) ++ data.drop (16 * (data.length / 16))

/-- A read of whole chunks has no tail. -/
theorem ctrRead_ofBlocks (c : BlockCipher) (key ctr : Bytes16) (o : ByteOffset) (xs : List Bytes16) :
    ctrRead c key ctr o (ofBlocks xs) = ofBlocks (xorStream (keystream c key ctr o) xs) := by
  rw [ctrRead, toBlocks_ofBlocks, ofBlocks_length_div, ← ofBlocks_length, List.drop_length, List.append_nil]

/-- The read in closed form, on a length the policy accepts (R123 to R126). -/
theorem execCtrrWith_read {p : Params} (o : ByteOffset) {data : Bytes} {s : State} {key ctr : Bytes16}
    (hc : s.cur = ⟨true, some key, some ctr⟩) (hd : data.length % 16 = 0 ∨ p.tailPolicy = .drop) :
    execCtrrWith p o data s =
      .next (respond .ok (ctrRead p.cipher key ctr o data)
        (installCursor key (ctrAfter ctr o (data.length / 16)) s)) := by
  rw [execCtrrWith_of_cursor o hc hd, ctrChunks_eq, writeCounter_eq_installCursor hc, chunkOffset_zero, toBlocks_length,
    ctrRead]

/-- A read of whole chunks in closed form. The payload may be written with any counter block `c0` that agrees with the present
one in bytes 0 to 8 (R130), so that reads in different states are compared. -/
theorem execCtrrWith_ofBlocks (p : Params) (o : ByteOffset) (xs : List Bytes16) {s : State} {key ctr c0 : Bytes16}
    (hc : s.cur = ⟨true, some key, some ctr⟩) (hpre : ctr.val.take 9 = c0.val.take 9) :
    execCtrrWith p o (ofBlocks xs) s =
      .next (respond .ok (ofBlocks (xorStream (keystream p.cipher key c0 o) xs))
        (installCursor key (ctrAfter ctr o xs.length) s)) := by
  have haligned : (ofBlocks xs).length % 16 = 0 := by rw [ofBlocks_length]; omega
  rw [execCtrrWith_read o hc (.inl haligned), ctrRead_ofBlocks, keystream_congr p.cipher key hpre, ofBlocks_length_div]

/-- A CTRR that goes on either ends in an error, which changes nothing, or reads. -/
theorem execCtrrWith_next_cases {p : Params} {o : ByteOffset} {data : Bytes} {s t : State}
    (h : execCtrrWith p o data s = .next t) :
    (∃ e, e ≠ .ok ∧ t = respond e [] s) ∨
    (∃ key ctr, s.cur = ⟨true, some key, some ctr⟩ ∧ (data.length % 16 = 0 ∨ p.tailPolicy = .drop) ∧
      t = respond .ok (ctrRead p.cipher key ctr o data) (installCursor key (ctrAfter ctr o (data.length / 16)) s)) := by
  rcases execCtrrWith_cases p o data s with ⟨-, heq⟩ | ⟨-, -, -, heq⟩ | ⟨key, ctr, hc, hd, -⟩ | ⟨-, -, heq⟩
  · exact .inl ⟨_, by decide, next_unique h heq⟩
  · exact .inl ⟨_, by decide, next_unique h heq⟩
  · exact .inr ⟨key, ctr, hc, hd, next_unique h (execCtrrWith_read o hc hd)⟩
  · cases h.symm.trans heq

/-- Data of whole chunks is tiled by blocks (R36). -/
theorem exists_ofBlocks_of_mod {data : Bytes} (h : data.length % 16 = 0) : ∃ xs, ofBlocks xs = data := by
  obtain ⟨xs, -, hxs⟩ := exists_ofBlocks (show data.length = 16 * (data.length / 16) by omega)
  exact ⟨xs, hxs⟩

/-! ### The answers of CTRR -/

/-- Chunk i of the payload is chunk i of the data combined with `E` of that chunk's counter block (R125, R126). -/
theorem blockAt_xorStream_keystream (c : BlockCipher) (key ctr : Bytes16) (o : ByteOffset) {xs : List Bytes16} {i : Nat}
    (hi : i < xs.length) {block : Bytes16} (hblock : block.val = ctr.val.take 9 ++ chunkSuffix o i) :
    blockAt (ofBlocks (xorStream (keystream c key ctr o) xs)) i =
      xorBytes (blockAt (ofBlocks xs) i) (c.E key block).val := by
  obtain rfl : block = setCounterLow ctr (chunkOffset o i) :=
    Subtype.ext (hblock.trans (setCounterLow_chunkOffset_val ctr o i).symm)
  have hdata : xs[i]? = some xs[i] := List.getElem?_eq_getElem hi
  have hpayload : (xorStream (keystream c key ctr o) xs)[i]? = some (xorBlock xs[i] (keystream c key ctr o i)) := by
    rw [xorStream_getElem?, hdata, Option.map_some]
  rw [blockAt_ofBlocks hpayload, blockAt_ofBlocks hdata, xorBlock_val, keystream]

/-- The counter block after a read of the chunks `xs`, as the statements write it (R132). -/
theorem ctrAfter_val (ctr : Bytes16) (o : ByteOffset) (xs : List Bytes16) :
    (ctrAfter ctr o xs.length).val =
      if ofBlocks xs = [] then ctr.val else ctr.val.take 9 ++ chunkSuffix o ((ofBlocks xs).length / 16 - 1) := by
  cases xs with
  | nil => rfl
  | cons x xs =>
    have hne : ofBlocks (x :: xs) ≠ [] := List.ne_nil_of_length_pos (by rw [ofBlocks_length, List.length_cons]; omega)
    rw [if_neg hne, ofBlocks_length_div, List.length_cons, ctrAfter_succ, setCounterLow_chunkOffset_val,
      Nat.add_sub_cancel]

/-- Settles O19: the checks in their order, and the closed form of every chunk. -/
theorem ctrrAnswersByItsAlgorithm : Obligations.CtrrAnswersByItsAlgorithm := by
  intro s o data
  simp only [exec_ctrr]
  refine ⟨fun hv => ?_, fun hv hd => ?_, fun key ctr hc hd => ?_⟩
  · exact execCtrrWith_of_invalid Config.params o data hv
  · exact execCtrrWith_of_misaligned o hv hd rfl
  · obtain ⟨xs, rfl⟩ := exists_ofBlocks_of_mod hd
    refine ⟨_, _, execCtrrWith_ofBlocks Config.params o xs hc rfl, ?_, fun i block hi hblock => ?_, ctrAfter_val ctr o xs⟩
    · rw [ofBlocks_length, xorStream_length, ofBlocks_length]
    · exact blockAt_xorStream_keystream Config.cipher key ctr o (ofBlocks_length_div xs ▸ hi) hblock

/-- Settles O20: an error leaves `CUR`, a read leaves the counter block of its last chunk if it has one. -/
theorem ctrrLeavesTheLastSuffix : Obligations.CtrrLeavesTheLastSuffix := by
  intro p s t o data h
  rcases execCtrrWith_next_cases h with ⟨e, he, rfl⟩ | ⟨key, ctr, hc, -, rfl⟩
  · exact ⟨rfl, rfl, rfl, ⟨e, []⟩, rfl, fun ⟨hok, _⟩ => absurd hok he, fun _ => rfl⟩
  · have hprefix : counterPrefix s = some (ctr.val.take 9) := counterPrefix_of_cur hc
    refine ⟨by rw [hc]; rfl, by rw [hc]; rfl, ?_, _, rfl, fun ⟨_, hlong⟩ => ?_, fun hshort => ?_⟩
    · rw [hprefix, counterPrefix_respond, counterPrefix_installCursor, ctrAfter_take]
    · obtain ⟨n, hn⟩ : ∃ n, data.length / 16 = n + 1 := ⟨data.length / 16 - 1, by omega⟩
      simp [hn, setCounterLow_drop, chunkOffset]
    · have hnone : data.length / 16 = 0 := Nat.div_eq_of_lt (Nat.not_le.mp fun hlong => hshort ⟨rfl, hlong⟩)
      simp [hnone, hc]

/-- Settles O21: under `drop` the read of the data and the read of its whole chunks go through the same blocks. -/
theorem tailPolicies : Obligations.TailPolicies := by
  intro p s key ctr o data hc hd
  refine ⟨fun hreject => execCtrrWith_of_misaligned o (by rw [hc]) hd hreject, fun hdrop => ?_⟩
  have hwhole := execCtrrWith_ofBlocks p o (toBlocks data) hc rfl
  rw [ofBlocks_toBlocks, toBlocks_length] at hwhole
  refine ⟨_, _, hwhole, execCtrrWith_read o hc (.inr hdrop), fun hshort => ?_⟩
  have hnone : data.length / 16 = 0 := Nat.div_eq_of_lt hshort
  have hblocks : toBlocks data = [] := List.eq_nil_of_length_eq_zero (by rw [toBlocks_length, hnone])
  exact ⟨by rw [hblocks]; rfl, by rw [hnone, ctrAfter_zero, installCursor_self hc]⟩

/-! ### Reads related to each other -/

/-- Settles O22: the second read combines the chunks with the same keystream once more and writes the same counter block. -/
theorem ctrrIsItsOwnInverse : Obligations.CtrrIsItsOwnInverse := by
  intro s t o data payload h hresp
  rw [exec_ctrr] at h ⊢
  rcases execCtrrWith_next_cases h with ⟨e, he, rfl⟩ | ⟨key, ctr, hc, haccept, rfl⟩
  · obtain ⟨rfl, -⟩ : e = .ok ∧ [] = payload := by simpa using hresp
    exact absurd rfl he
  · have haligned : data.length % 16 = 0 := haccept.resolve_right (by decide)
    obtain ⟨xs, rfl⟩ := exists_ofBlocks_of_mod haligned
    obtain rfl : ctrRead Config.params.cipher key ctr o (ofBlocks xs) = payload := by simpa using hresp
    rw [ofBlocks_length_div, ctrRead_ofBlocks]
    have hcur := respond_installCursor_cur .ok (ofBlocks (xorStream (keystream Config.params.cipher key ctr o) xs)) key
      (ctrAfter ctr o xs.length) s
    rw [execCtrrWith_ofBlocks Config.params o _ hcur (ctrAfter_take ctr o xs.length), xorStream_length, ctrAfter_idem,
      installCursor_self hcur, xorStream_xorStream]
    rfl

/-- Settles O23: every read sees the counter block in bytes 0 to 8 alone, and the keystream of the second part is the one the
read over both reaches there. -/
theorem ctrrReadsCompose : Obligations.CtrrReadsCompose := by
  intro s key ctr o d1 d2 hc h1 h2
  obtain ⟨xs, rfl⟩ := exists_ofBlocks_of_mod h1
  obtain ⟨ys, rfl⟩ := exists_ofBlocks_of_mod h2
  have hsecond : o + BitVec.ofNat 64 (ofBlocks xs).length = chunkOffset o xs.length := by
    rw [ofBlocks_length, chunkOffset]
  have hboth : ofBlocks (xorStream (keystream Config.cipher key ctr o) (xs ++ ys)) =
      ofBlocks (xorStream (keystream Config.cipher key ctr o) xs) ++
        ofBlocks (xorStream (keystream Config.cipher key ctr (chunkOffset o xs.length)) ys) := by
    simp only [xorStream_append, ofBlocks_append, ← keystream_chunkOffset]
  simp only [exec_ctrr, hsecond, ← ofBlocks_append]
  refine ⟨ofBlocks (xorStream (keystream Config.cipher key ctr o) xs),
    ofBlocks (xorStream (keystream Config.cipher key ctr (chunkOffset o xs.length)) ys), _, _, _, _, _,
    execCtrrWith_ofBlocks Config.params o xs hc rfl, rfl,
    execCtrrWith_ofBlocks Config.params _ ys (respond_installCursor_cur ..) (ctrAfter_take ctr o xs.length), rfl,
    execCtrrWith_ofBlocks Config.params _ ys hc rfl, rfl,
    execCtrrWith_ofBlocks Config.params o xs (respond_installCursor_cur ..) (ctrAfter_take ctr _ ys.length), rfl,
    execCtrrWith_ofBlocks Config.params o (xs ++ ys) hc rfl, ?_, ?_⟩
  · rw [← hboth]
    rfl
  · simp [ctrAfter_ctrAfter]

/-- Offsets with one suffix give one answer, in every state (R129, R131). -/
theorem execCtrrWith_congr_offset (p : Params) {o o' : ByteOffset} (h : suffix56 o = suffix56 o') (data : Bytes)
    (s : State) : execCtrrWith p o data s = execCtrrWith p o' data s := by
  simp only [execCtrrWith, readCursor, ctrChunks_eq, chunkOffset_zero, keystream_congr_offset _ _ _ h,
    ctrAfter_congr_offset _ h]

/-- Settles O26: the low four bits of the offset do not enter the suffix. -/
theorem ctrrIgnoresLowOffsetBits : Obligations.CtrrIgnoresLowOffsetBits :=
  fun s o data => execCtrrWith_congr_offset Config.params (suffix56_sub_mod o) data s

/-- Settles O27: the high four bits of the offset do not enter the suffix. -/
theorem ctrrOffsetsRepeatEvery2Pow60 : Obligations.CtrrOffsetsRepeatEvery2Pow60 :=
  fun s o m data => execCtrrWith_congr_offset Config.params (suffix56_add_mul o m) data s

/-! ### What a read depends on -/

/-- Settles O24: CTRR answers alike where the cursors agree in the visible part. -/
theorem ctrrDependsOnKeyAndPrefixOnly : Obligations.CtrrDependsOnKeyAndPrefixOnly := by
  intro s t u o data hvalid hkey hprefix h
  obtain ⟨v, hv, halike⟩ := exec_alike ⟨hvalid, hkey, hprefix⟩ h
  obtain ⟨r, hu, hr⟩ := halike.response
  exact ⟨v, r, hv, hu, hr⟩

/-- A command other than CTRI leaves the visible part of the cursor (R12). -/
theorem exec_keeps_visible {i : Instr} {s t : State} (hi : ∀ key nonce o, i ≠ .ctri key nonce o)
    (h : exec i s = .next t) : SameVisibleCursor s t := by
  rw [exec_eq_execWith] at h
  rcases execWith_next_cases h with ⟨st, x, rfl⟩ | ⟨key, nonce, o, -, -, hctri, -⟩ |
    ⟨-, -, key, c1, c2, -, -, hc, hpre, rfl⟩
  · exact ⟨rfl, rfl, rfl⟩
  · exact absurd hctri (hi key nonce o)
  · have hprefix : counterPrefix s = some (c1.val.take 9) := counterPrefix_of_cur hc
    exact ⟨rfl, rfl, by simp [hprefix, hpre]⟩

/-- A history goes on from the state its first command leaves. -/
theorem execAll_cons_eq_next {i : Instr} {history : List Instr} {s t : State}
    (h : execAll (i :: history) s = .next t) : ∃ u, exec i s = .next u ∧ execAll history u = .next t := by
  rw [execAll] at h
  split at h
  · exact ⟨_, ‹_›, h⟩
  · cases h
  · cases h

/-- A history that holds no CTRI leaves the visible part of the cursor: each of its commands does. -/
theorem execAll_keeps_visible {history : List Instr} {s t : State} (hi : ∀ key nonce o, .ctri key nonce o ∉ history)
    (h : execAll history s = .next t) : SameVisibleCursor s t := by
  induction history generalizing s with
  | nil =>
    cases h
    exact .of_cur_eq rfl
  | cons i history ih =>
    obtain ⟨u, hu, hrest⟩ := execAll_cons_eq_next h
    have hfirst := exec_keeps_visible (fun key nonce o hctri => hi key nonce o (by simp [hctri])) hu
    have hlater := ih (fun key nonce o hmem => hi key nonce o (List.mem_cons_of_mem i hmem)) hrest
    exact ⟨hfirst.valid.trans hlater.valid, hfirst.key.trans hlater.key, hfirst.counter.trans hlater.counter⟩

/-- Settles O25: the history leaves the visible part of the cursor, and the read depends on nothing else. -/
theorem ctrrIsIndependentOfHistory : Obligations.CtrrIsIndependentOfHistory := by
  intro history s t u o data hi hhistory h
  obtain ⟨hvalid, hkey, hprefix⟩ := execAll_keeps_visible hi hhistory
  exact ctrrDependsOnKeyAndPrefixOnly s t u o data hvalid hkey hprefix h

end Sys2Proof.Laws
end

section
/-! SUPPORT. The two ciphers given as values of `BC` (spec 48_aes128_reference.md). On the finite set of blocks a map undone by
another is a permutation, so one direction of the contract of R80 gives the other. AES-128 is undone layer by layer
(R146, R148): the S-box by its table, `ShiftRows` by its indices, `MixColumns` by the linearity of `•`. -/

namespace Sys2Proof.Laws

open Sys2Proof.Machine Sys2Proof.Claims

/-! ### The contract of a cipher -/

theorem finite_bytes16 : Finite Bytes16 := inferInstanceAs (Finite (List.Vector Byte 16))

/-- One direction of the contract of R80 gives the other. -/
theorem lawful_of_decrypt_encrypt {c : BlockCipher} (h : ∀ k x, c.D k (c.E k x) = x) : c.Lawful := by
  refine ⟨h, fun k => ?_⟩
  have hinv : Function.LeftInverse (c.D k) (c.E k) := h k
  have := finite_bytes16
  exact hinv.rightInverse_of_surjective (Finite.surjective_of_injective hinv.injective)

/-! ### TOY128 -/

theorem beNat_bytes16_lt (x : Bytes16) : beNat x.val < 2 ^ 128 := by
  simpa [x.property] using beNat_lt x.val

/-- The integer of a block encodes to the block (R9). -/
theorem beN_beNat (x : Bytes16) : beN 16 (beNat x.val) = x :=
  Subtype.ext (by simpa [x.property] using beBytes_beNat x.val)

/-- The block of a sum or difference modulo 2^128 has that integer (R150). -/
theorem beNat_beN_mod (m : Nat) : beNat (beN 16 (m % 2 ^ 128)).val = m % 2 ^ 128 := by
  rw [beN_val, beNat_beBytes]
  exact Nat.mod_mod m (2 ^ 128)

/-- Settles O45: the difference modulo 2^128 takes back the sum. -/
theorem toyCipherMeetsTheContract : Obligations.ToyCipherMeetsTheContract := by
  refine lawful_of_decrypt_encrypt fun k x => ?_
  have hk := beNat_bytes16_lt k
  have hx := beNat_bytes16_lt x
  have hsub : ((beNat x.val + beNat k.val) % 2 ^ 128 + 2 ^ 128 - beNat k.val) % 2 ^ 128 = beNat x.val := by omega
  simp only [toy128, beNat_beN_mod, hsub, beN_beNat]

/-! ### The bytes of an AES state -/

@[simp] theorem aesByte_aesState (f : Nat → Byte) {i : Nat} (h : i < 16) : aesByte (aesState f) i = f i := by
  simp [aesByte, aesState, h]

/-- A state is given by its 16 bytes (R141). -/
theorem bytes16_eq_of_aesByte {s t : Bytes16} (h : ∀ i < 16, aesByte s i = aesByte t i) : s = t := by
  refine Subtype.ext (List.ext_getElem (s.property.trans t.property.symm) fun i hs ht => ?_)
  simpa [aesByte, hs, ht] using h i (s.property ▸ hs)

/-! ### SubBytes and ShiftRows -/

/-- `INVSBOX` inverts `SBOX` (R144). -/
@[simp] theorem aesInvSbox_aesSbox : ∀ a : Byte, aesInvSbox (aesSbox a) = a := by decide +kernel

@[simp] theorem aesInvSubBytes_aesSubBytes (s : Bytes16) : aesInvSubBytes (aesSubBytes s) = s :=
  bytes16_eq_of_aesByte fun i hi => by simp [aesInvSubBytes, aesSubBytes, hi]

/-- Row `i mod 4` is rotated left and then right by as many columns (R146). -/
@[simp] theorem aesInvShiftRows_aesShiftRows (s : Bytes16) : aesInvShiftRows (aesShiftRows s) = s := by
  refine bytes16_eq_of_aesByte fun i hi => ?_
  rw [aesInvShiftRows, aesByte_aesState _ hi, aesShiftRows, aesByte_aesState _ (by omega)]
  congr 1
  omega

/-! ### MixColumns -/

/-- `xtime` as a shift and the feedback of the bit shifted out (R142). -/
theorem aesXtime_eq (a : Byte) : aesXtime a = a <<< 1 ^^^ (if a.msb then 0x1b else 0) := by
  unfold aesXtime
  split <;> simp

theorem aesXtime_xor (a b : Byte) : aesXtime (a ^^^ b) = aesXtime a ^^^ aesXtime b := by
  have hfeedback : (if (a ^^^ b).msb then (0x1b : Byte) else 0) =
      (if a.msb then 0x1b else 0) ^^^ (if b.msb then 0x1b else 0) := by
    cases ha : a.msb <;> cases hb : b.msb <;> simp [ha, hb]
  simp only [aesXtime_eq, BitVec.shiftLeft_xor_distrib, hfeedback]
  ac_rfl

theorem aesXtime_iterate_xor (n : Nat) (a b : Byte) : aesXtime^[n] (a ^^^ b) = aesXtime^[n] a ^^^ aesXtime^[n] b := by
  induction n generalizing a b with
  | zero => rfl
  | succ n ih => simp only [Function.iterate_succ_apply, aesXtime_xor, ih]

/-- A sum of chosen terms is additive in the terms. -/
theorem foldl_xor_additive {f g h : Nat → Byte} (hadd : ∀ n, h n = f n ^^^ g n) (p : Nat → Bool) (l : List Nat) (x y : Byte) :
    l.foldl (fun acc n => if p n then acc ^^^ h n else acc) (x ^^^ y) =
      l.foldl (fun acc n => if p n then acc ^^^ f n else acc) x ^^^
        l.foldl (fun acc n => if p n then acc ^^^ g n else acc) y := by
  induction l generalizing x y with
  | nil => rfl
  | cons n l ih =>
    have hstep : x ^^^ y ^^^ h n = x ^^^ f n ^^^ (y ^^^ g n) := by rw [hadd]; ac_rfl
    cases hp : p n <;> simp [hp, hstep, ih]

/-- `•` distributes over `xor` on the left, the side `xtime` is applied to (R142). -/
theorem aesMul_xor (a b m : Byte) : aesMul (a ^^^ b) m = aesMul a m ^^^ aesMul b m :=
  foldl_xor_additive (fun n => aesXtime_iterate_xor n a b) m.getLsbD (List.range 8) 0 0

/-- The first row of `MixColumns`; row r is this one on the column rotated by r (R146). -/
def aesMixRow (a0 a1 a2 a3 : Byte) : Byte := aesMul a0 0x02 ^^^ aesMul a1 0x03 ^^^ a2 ^^^ a3

/-- The first row of `InvMixColumns`; row r is this one on the column rotated by r (R146). -/
def aesInvMixRow (a0 a1 a2 a3 : Byte) : Byte :=
  aesMul a0 0x0e ^^^ aesMul a1 0x0b ^^^ aesMul a2 0x0d ^^^ aesMul a3 0x09

theorem aesMixColumn_eq_rows (a0 a1 a2 a3 : Byte) :
    aesMixColumn a0 a1 a2 a3 =
      [aesMixRow a0 a1 a2 a3, aesMixRow a1 a2 a3 a0, aesMixRow a2 a3 a0 a1, aesMixRow a3 a0 a1 a2] := by
  simp only [aesMixColumn, aesMixRow, List.cons.injEq, and_true]
  refine ⟨trivial, ?_, ?_, ?_⟩ <;> ac_rfl

theorem aesInvMixColumn_eq_rows (a0 a1 a2 a3 : Byte) :
    aesInvMixColumn a0 a1 a2 a3 =
      [aesInvMixRow a0 a1 a2 a3, aesInvMixRow a1 a2 a3 a0, aesInvMixRow a2 a3 a0 a1, aesInvMixRow a3 a0 a1 a2] := by
  simp only [aesInvMixColumn, aesInvMixRow, List.cons.injEq, and_true]
  refine ⟨trivial, ?_, ?_, ?_⟩ <;> ac_rfl

/-- The diagonal of the product of the two matrices: `0e•02 + 0b + 0d + 09•03 = 01`. -/
theorem aesMul_diagonal : ∀ a : Byte,
    aesMul (aesMul a 0x02) 0x0e ^^^ aesMul a 0x0b ^^^ aesMul a 0x0d ^^^ aesMul (aesMul a 0x03) 0x09 = a := by
  decide +kernel

/-- The product of the two matrices one place off the diagonal: `0e•03 + 0b•02 + 0d + 09 = 00`. -/
theorem aesMul_one_off : ∀ a : Byte,
    aesMul (aesMul a 0x03) 0x0e ^^^ aesMul (aesMul a 0x02) 0x0b ^^^ aesMul a 0x0d ^^^ aesMul a 0x09 = 0 := by
  decide +kernel

/-- Two places off the diagonal: `0e + 0b•03 + 0d•02 + 09 = 00`. -/
theorem aesMul_two_off : ∀ a : Byte,
    aesMul a 0x0e ^^^ aesMul (aesMul a 0x03) 0x0b ^^^ aesMul (aesMul a 0x02) 0x0d ^^^ aesMul a 0x09 = 0 := by
  decide +kernel

/-- Three places off the diagonal: `0e + 0b + 0d•03 + 09•02 = 00`. -/
theorem aesMul_three_off : ∀ a : Byte,
    aesMul a 0x0e ^^^ aesMul a 0x0b ^^^ aesMul (aesMul a 0x03) 0x0d ^^^ aesMul (aesMul a 0x02) 0x09 = 0 := by
  decide +kernel

/-- The first row of the product of the two matrices is the first row of the identity. -/
theorem aesInvMixRow_aesMixRow (a0 a1 a2 a3 : Byte) :
    aesInvMixRow (aesMixRow a0 a1 a2 a3) (aesMixRow a1 a2 a3 a0) (aesMixRow a2 a3 a0 a1) (aesMixRow a3 a0 a1 a2) = a0 := by
  simp only [aesInvMixRow, aesMixRow, aesMul_xor]
  calc
    _ = (aesMul (aesMul a0 0x02) 0x0e ^^^ aesMul a0 0x0b ^^^ aesMul a0 0x0d ^^^ aesMul (aesMul a0 0x03) 0x09) ^^^
        (aesMul (aesMul a1 0x03) 0x0e ^^^ aesMul (aesMul a1 0x02) 0x0b ^^^ aesMul a1 0x0d ^^^ aesMul a1 0x09) ^^^
        (aesMul a2 0x0e ^^^ aesMul (aesMul a2 0x03) 0x0b ^^^ aesMul (aesMul a2 0x02) 0x0d ^^^ aesMul a2 0x09) ^^^
        (aesMul a3 0x0e ^^^ aesMul a3 0x0b ^^^ aesMul (aesMul a3 0x03) 0x0d ^^^ aesMul (aesMul a3 0x02) 0x09) := by
      ac_rfl
    _ = a0 ^^^ 0 ^^^ 0 ^^^ 0 := by rw [aesMul_diagonal, aesMul_one_off, aesMul_two_off, aesMul_three_off]
    _ = a0 := by simp

/-- Byte j of column c after a map of columns. -/
theorem aesByte_aesColumns (f : Byte → Byte → Byte → Byte → Bytes) (s : Bytes16) {c j : Nat} (hc : c < 4) (hj : j < 4) :
    aesByte (aesColumns f s) (4 * c + j) =
      (f (aesByte s (4 * c)) (aesByte s (4 * c + 1)) (aesByte s (4 * c + 2)) (aesByte s (4 * c + 3))).getD j 0 := by
  rw [aesColumns, aesByte_aesState _ (by omega), show (4 * c + j) / 4 = c by omega, show (4 * c + j) % 4 = j by omega]

@[simp] theorem aesInvMixColumns_aesMixColumns (s : Bytes16) : aesInvMixColumns (aesMixColumns s) = s := by
  refine bytes16_eq_of_aesByte fun i hi => ?_
  obtain ⟨c, j, hc, hj, rfl⟩ : ∃ c j, c < 4 ∧ j < 4 ∧ i = 4 * c + j := ⟨i / 4, i % 4, by omega, by omega, by omega⟩
  have hmix := fun r (hr : r < 4) => aesByte_aesColumns aesMixColumn s hc hr
  have hmix0 : aesByte (aesColumns aesMixColumn s) (4 * c) = _ := hmix 0 (by decide)
  rw [aesInvMixColumns, aesByte_aesColumns _ _ hc hj, aesMixColumns, hmix0, hmix 1 (by decide),
    hmix 2 (by decide), hmix 3 (by decide), aesMixColumn_eq_rows, aesInvMixColumn_eq_rows]
  simp only [List.getD_cons_zero, List.getD_cons_succ, aesInvMixRow_aesMixRow]
  interval_cases j <;> rfl

/-! ### The rounds -/

/-- Rounds run backwards undo the rounds when each backward round takes the image under h of a round's result to the
image under h of its input. -/
theorem foldr_foldl_of_round_undone {α β σ : Type} {f : α → σ → α} {g : σ → β → β} {h : α → β}
    (hround : ∀ r s, g r (h (f s r)) = h s) (rounds : List σ) (s : α) :
    rounds.foldr g (h (rounds.foldl f s)) = h s := by
  induction rounds generalizing s with
  | nil => rfl
  | cons r rounds ih => rw [List.foldl_cons, List.foldr_cons, ih, hround]

/-- The inverse cipher undoes the cipher: `InvShiftRows` and `InvSubBytes` of a round undo the same layers of the round
after it, so what runs through both is the state before a round's `MixColumns` (R147, R148). -/
theorem aesDecrypt_aesEncrypt (k x : Bytes16) : aesDecrypt k (aesEncrypt k x) = x := by
  simp only [aesDecrypt, aesEncrypt, xorBlock_cancel]
  rw [foldr_foldl_of_round_undone (h := fun s => aesShiftRows (aesSubBytes s)) fun r s => by simp]
  simp

/-- Settles O44: the inverse cipher undoes the cipher, and the blocks are finitely many. -/
theorem aesMeetsTheContract : Obligations.AesMeetsTheContract := lawful_of_decrypt_encrypt aesDecrypt_aesEncrypt

/-! ### The known answers -/

/-- Settles O46: each value is computed; the decryption of the first answer is the contract. -/
theorem aesKnownAnswers : Obligations.AesKnownAnswers := by
  have hencrypt : aes128.E (beN 16 0x000102030405060708090a0b0c0d0e0f) (beN 16 0x00112233445566778899aabbccddeeff) =
      beN 16 0x69c4e0d86a7b0430d8cdb78070b4c55a := by decide +kernel
  refine ⟨hencrypt, ?_, ?_, ?_, ?_, ?_⟩
  · rw [← hencrypt]
    exact aesMeetsTheContract.1 _ _
  all_goals decide +kernel

/-! ### The S-box -/

/-- The inverse of the affine map of R143. -/
def sboxAffineInv (s : Byte) : Byte := s.rotateLeft 1 ^^^ s.rotateLeft 3 ^^^ s.rotateLeft 6 ^^^ 0x05

theorem sboxAffine_sboxAffineInv : ∀ s : Byte, sboxAffine (sboxAffineInv s) = s := by decide +kernel

/-- Taking the affine map off an entry of the table leaves the inverse in GF(2^8) (R143). -/
theorem aesMul_sboxAffineInv_aesSbox : ∀ a : Byte, a ≠ 0x00 → aesMul a (sboxAffineInv (aesSbox a)) = 0x01 := by
  decide +kernel

/-- Settles O47: the inverse of a is the entry of a with the affine map taken off. -/
theorem sboxIsAffineOfInverse : Obligations.SboxIsAffineOfInverse :=
  ⟨by decide,
    fun a ha => ⟨sboxAffineInv (aesSbox a), aesMul_sboxAffineInv_aesSbox a ha, (sboxAffine_sboxAffineInv _).symm⟩,
    aesInvSbox_aesSbox⟩

end Sys2Proof.Laws
end

section
/-! SUPPORT. Errors (spec R166, R168): an error changes nothing but the responses, and of the errors that apply the first in
the order of R168 is the one reported. The conditions of the statement are sorted by command, and each command's checks are
held against its own conditions. -/

namespace Sys2Proof.Laws

open Sys2Proof.Machine Sys2Proof.Claims

/-! ### What an error leaves unchanged -/

/-- Settles O30: the response of an error has no payload, and neither `CUR` nor what is pending is changed. -/
theorem errorsHaveNoEffect : Obligations.ErrorsHaveNoEffect := by
  intro i s t r h hr hst
  obtain ⟨hinputs, q, hq, -, hlength⟩ := oneListedResponsePerCommand i s t h
  obtain rfl : q = r := List.singleton_injective (List.append_cancel_left (hq.symm.trans hr))
  rw [if_neg hst] at hlength
  rw [exec_eq_execWith] at h
  have hcur : t.cur = s.cur := execWith_error_cur h hr hst
  refine ⟨List.length_eq_zero_iff.mp hlength, ?_⟩
  rw [← hr, ← hcur, ← hinputs]

/-! ### The errors of a command -/

/-- Decrypted block 32 of a header of the right length does not show `MAGIC` (R163). -/
def HeaderMismatch (key data : Bytes) : Prop :=
  ∃ k1 k2 m : Bytes16, key = k1.val ++ k2.val ∧ data.length = 3072 ∧ m.val = blockAt data 32 ∧
    (headerBlockDec Config.cipher k1 k2 32 m).val.take 4 ≠ Config.magic.val

/-- Which errors a command gives rise to under a cursor, each by its own condition and without regard to the others: the
rows of R160 with the conditions of R161 to R164 and R169. -/
def CommandRaises (cur : Cursor) : Instr → Status → Prop
  | .xtsh key data, e =>
    (e = .invalidKeyLength ∧ key.length ≠ 32) ∨ (e = .invalidBufferLength ∧ data.length ≠ 3072) ∨
      (e = .formatMismatch ∧ HeaderMismatch key data)
  | .ecbd key block, e =>
    (e = .invalidKeyLength ∧ key.length ≠ 16) ∨ (e = .invalidBufferLength ∧ block.length ≠ 16)
  | .cbcd key iv region, e =>
    (e = .invalidKeyLength ∧ key.length ≠ 16) ∨
      (e = .invalidBufferLength ∧ (iv.length ≠ 16 ∨ region.length ≠ 112))
  | .ctri key nonce _, e =>
    (e = .invalidKeyLength ∧ key.length ≠ 16) ∨ (e = .invalidBufferLength ∧ nonce.length ≠ 8)
  | .ctrr _ data, e =>
    (e = .noCursor ∧ cur.valid = false) ∨ (e = .unsupportedOffsetAlignment ∧ data.length % 16 ≠ 0)

/-- The errors of a packet that decodes are those of its command. -/
theorem raises_iff_commandRaises {p : Bytes} {i : Instr} (hdec : decode p = .ok i) (s : State) (e : Status) :
    Raises p s e ↔ CommandRaises s.cur i e := by
  cases i with
  | xtsh key data => cases e <;> simp [Raises, CommandRaises, HeaderMismatch, hdec]
  | ecbd key block => cases e <;> simp [Raises, CommandRaises, hdec]
  | cbcd key iv region => cases e <;> simp [Raises, CommandRaises, hdec]
  | ctri key nonce o => cases e <;> simp [Raises, CommandRaises, hdec]
  | ctrr o data => cases e <;> simp [Raises, CommandRaises, hdec]

/-- The two sub-keys make up the key (R83). -/
theorem val_eq_xtsDataKey_append_xtsTweakKey (k : BytesN 32) : k.val = (xtsDataKey k).val ++ (xtsTweakKey k).val := by
  have hrest : (k.val.drop 16).take 16 = k.val.drop 16 := List.take_of_length_le (by simp [k.property])
  simp [xtsDataKey, xtsTweakKey, sliceN, hrest]

/-- The magic check of XTSH fails exactly on a header that does not show `MAGIC` (R102, R163). -/
theorem slice_ne_magic_iff_headerMismatch (k : BytesN 32) {data : Bytes} (h : data.length = 3072) :
    slice (xtsFirstRegion Config.cipher k data) 512 516 ≠ Config.magic.val ↔ HeaderMismatch k.val data := by
  constructor
  · intro hne
    obtain ⟨m, hm⟩ := exists_val_eq_blockAt (show 16 * 32 + 16 ≤ data.length by omega)
    have hk : k.val = (xtsDataKey k).val ++ (xtsTweakKey k).val := val_eq_xtsDataKey_append_xtsTweakKey k
    exact ⟨xtsDataKey k, xtsTweakKey k, m, hk, h, hm, slice_xtsFirstRegion_magic Config.cipher hk h hm ▸ hne⟩
  · rintro ⟨k1, k2, m, hk, -, hm, hne⟩
    rwa [slice_xtsFirstRegion_magic Config.cipher hk h hm]

/-! ### The error that is reported -/

/-- Where the errors `raised` apply, the execution goes on from `s` with one response, whose status is the first of them in
the order of R168, and `OK` when there is none. -/
def ReportsFirst (raised : Status → Prop) (s : State) (out : Host.Outcome State Fault Refusal) : Prop :=
  ∃ t r, out = .next t ∧ t.responses = s.responses ++ [r] ∧
    ((r.status = .ok ∧ ∀ e ∈ errorOrder, ¬raised e) ∨
      ∃ before after, errorOrder = before ++ r.status :: after ∧ raised r.status ∧ ∀ e ∈ before, ¬raised e)

/-- `OK`, whatever was written of `CUR` before the answer. -/
theorem reportsFirst_ok {raised : Status → Prop} {s u : State} {x : Bytes} (hu : u.responses = s.responses)
    (hnone : ∀ e, ¬raised e) : ReportsFirst raised s (.next (respond .ok x u)) :=
  ⟨_, ⟨.ok, x⟩, rfl, by simp [hu], .inl ⟨rfl, fun e _ => hnone e⟩⟩

/-- An error that applies where none before it does. -/
theorem reportsFirst_error {raised : Status → Prop} {s : State} {e : Status} (before : List Status) {after : List Status}
    (horder : errorOrder = before ++ e :: after) (he : raised e) (hbefore : ∀ d ∈ before, ¬raised d) :
    ReportsFirst raised s (.next (respond e [] s)) :=
  ⟨_, ⟨e, []⟩, rfl, rfl, .inr ⟨before, after, horder, he, hbefore⟩⟩

/-- The key's length comes before all that XTSH, ECBD, CBCD and CTRI can report. -/
theorem reportsFirst_invalidKeyLength {raised : Status → Prop} {s : State} (hkey : raised .invalidKeyLength)
    (hearlier : ¬raised .illegalCommand ∧ ¬raised .noCursor) :
    ReportsFirst raised s (.next (respond .invalidKeyLength [] s)) :=
  reportsFirst_error [.illegalCommand, .noCursor] rfl hkey (by simpa using hearlier)

/-- The lengths of the other operands come after the key's. -/
theorem reportsFirst_invalidBufferLength {raised : Status → Prop} {s : State} (hbuffer : raised .invalidBufferLength)
    (hearlier : ¬raised .illegalCommand ∧ ¬raised .noCursor ∧ ¬raised .invalidKeyLength) :
    ReportsFirst raised s (.next (respond .invalidBufferLength [] s)) :=
  reportsFirst_error [.illegalCommand, .noCursor, .invalidKeyLength] rfl hbuffer (by simpa using hearlier)

/-- XTSH checks the key, the data and last the decrypted header (R103). -/
theorem execXtsh_reportsFirst (key data : Bytes) (s : State) :
    ReportsFirst (CommandRaises s.cur (.xtsh key data)) s (execXtshWith Config.params key data s) := by
  rcases execXtshWith_cases Config.params key data s with
    ⟨hkey, heq⟩ | ⟨hkey, hdata, heq⟩ | ⟨k, rfl, hdata, ⟨hmagic, heq⟩ | ⟨hmagic, heq⟩⟩ <;> rw [heq]
  · exact reportsFirst_invalidKeyLength (by simp [CommandRaises, hkey]) (by simp [CommandRaises])
  · exact reportsFirst_invalidBufferLength (by simp [CommandRaises, hdata]) (by simp [CommandRaises, hkey])
  · have hmismatch : HeaderMismatch k.val data := (slice_ne_magic_iff_headerMismatch k hdata).mp hmagic
    exact reportsFirst_error
      [.illegalCommand, .noCursor, .invalidKeyLength, .invalidBufferLength, .unsupportedOffsetAlignment] rfl
      (by simp [CommandRaises, hmismatch]) (by simp [CommandRaises, k.property, hdata])
  · have hmatch : ¬HeaderMismatch k.val data := fun h => (slice_ne_magic_iff_headerMismatch k hdata).mpr h hmagic
    exact reportsFirst_ok rfl (by simp [CommandRaises, k.property, hdata, hmatch])

/-- ECBD checks the key and then the block (R112). -/
theorem execEcbd_reportsFirst (key block : Bytes) (s : State) :
    ReportsFirst (CommandRaises s.cur (.ecbd key block)) s (execEcbdWith Config.params key block s) := by
  rcases execEcbdWith_cases Config.params key block s with
    ⟨hkey, heq⟩ | ⟨hkey, hblock, heq⟩ | ⟨k, x, rfl, rfl, heq⟩ <;> rw [heq]
  · exact reportsFirst_invalidKeyLength (by simp [CommandRaises, hkey]) (by simp [CommandRaises])
  · exact reportsFirst_invalidBufferLength (by simp [CommandRaises, hblock]) (by simp [CommandRaises, hkey])
  · exact reportsFirst_ok rfl (by simp [CommandRaises, k.property, x.property])

/-- CBCD checks the key and then the IV and the region, which have one error between them (R116). -/
theorem execCbcd_reportsFirst (key iv region : Bytes) (s : State) :
    ReportsFirst (CommandRaises s.cur (.cbcd key iv region)) s (execCbcdWith Config.params key iv region s) := by
  rcases execCbcdWith_cases Config.params key iv region s with
    ⟨hkey, heq⟩ | ⟨hkey, hbuffer, heq⟩ | ⟨k, v, rfl, rfl, hregion, heq⟩ <;> rw [heq]
  · exact reportsFirst_invalidKeyLength (by simp [CommandRaises, hkey]) (by simp [CommandRaises])
  · exact reportsFirst_invalidBufferLength (.inr ⟨rfl, hbuffer⟩) (by simp [CommandRaises, hkey])
  · exact reportsFirst_ok rfl (by simp [CommandRaises, k.property, v.property, hregion])

/-- CTRI checks the key and then the nonce (R121). -/
theorem execCtri_reportsFirst (key nonce : Bytes) (o : ByteOffset) (s : State) :
    ReportsFirst (CommandRaises s.cur (.ctri key nonce o)) s (execCtri key nonce o s) := by
  rcases execCtri_cases key nonce o s with ⟨hkey, heq⟩ | ⟨hkey, hnonce, heq⟩ | ⟨k, n, rfl, rfl, heq⟩ <;> rw [heq]
  · exact reportsFirst_invalidKeyLength (by simp [CommandRaises, hkey]) (by simp [CommandRaises])
  · exact reportsFirst_invalidBufferLength (by simp [CommandRaises, hnonce]) (by simp [CommandRaises, hkey])
  · exact reportsFirst_ok rfl (by simp [CommandRaises, k.property, n.property])

/-- CTRR checks for a cursor and then the length, which the policy `reject` wants whole (R123, R128); it stops in no coherent
state. -/
theorem execCtrr_reportsFirst (o : ByteOffset) (data : Bytes) {s : State} (hs : CursorCoherent s) :
    ReportsFirst (CommandRaises s.cur (.ctrr o data)) s (execCtrrWith Config.params o data s) := by
  obtain ⟨t, hnext⟩ := execCtrrWith_goes_on Config.params o data hs
  rcases execCtrrWith_cases Config.params o data s with
    ⟨hvalid, heq⟩ | ⟨hvalid, hdata, -, heq⟩ | ⟨key, ctr, hcur, hwhole | hdrop, heq⟩ | ⟨-, -, heq⟩
  · rw [heq]
    exact reportsFirst_error [.illegalCommand] rfl (by simp [CommandRaises, hvalid]) (by simp [CommandRaises])
  · rw [heq]
    exact reportsFirst_error [.illegalCommand, .noCursor, .invalidKeyLength, .invalidBufferLength] rfl
      (by simp [CommandRaises, hdata]) (by simp [CommandRaises, hvalid])
  · rw [heq]
    exact reportsFirst_ok rfl (by simp [CommandRaises, hcur, hwhole])
  · cases hdrop
  · cases hnext.symm.trans heq

/-- Each command by its own checks. -/
theorem exec_reportsFirst (i : Instr) {s : State} (hs : CursorCoherent s) :
    ReportsFirst (CommandRaises s.cur i) s (exec i s) := by
  rw [exec_eq_execWith]
  cases i with
  | xtsh key data => exact execXtsh_reportsFirst key data s
  | ecbd key block => exact execEcbd_reportsFirst key block s
  | cbcd key iv region => exact execCbcd_reportsFirst key iv region s
  | ctri key nonce o => exact execCtri_reportsFirst key nonce o s
  | ctrr o data => exact execCtrr_reportsFirst o data hs

/-- Settles O28: an illegal packet has the first error of all; any other has the errors of its command. -/
theorem firstErrorInOrderIsReported : Obligations.FirstErrorInOrderIsReported := by
  intro s p rest hs hin
  change ReportsFirst (Raises p s) s (step s)
  cases hdec : decode p with
  | error e =>
    have hillegal : Raises p s .illegalCommand := by simp [Raises, hdec]
    rw [step_of_decode_error hin hdec]
    exact reportsFirst_error [] rfl hillegal (by simp)
  | ok i =>
    have hraised : Raises p s = CommandRaises s.cur i := funext fun e => propext (raises_iff_commandRaises hdec s e)
    have hrest : CursorCoherent { s with inputs := rest } := hs.of_cur_eq rfl
    rw [step_of_decode_ok hin hdec, hraised]
    exact exec_reportsFirst i hrest

end Sys2Proof.Laws
end

section
/-! SUPPORT. Reset, idling and going on (spec R190, R197, R198): what a step does with a reset event and with nothing
presented, and that an invariant under which every step goes on carries through runs of every length. -/

namespace Sys2Proof.Laws

open Sys2Proof.Machine

/-- Settles O37: a pending reset is the step's own branch, and what it leaves differs from `State.reset` in the inputs
alone. -/
theorem resetEventLeavesTheResetState : Obligations.ResetEventLeavesTheResetState := fun _ _ => step_of_reset

/-- Settles O38: nothing pending is the step's own branch. -/
theorem idleStepChangesNothing : Obligations.IdleStepChangesNothing := fun _ => step_of_idle

/-- From a coherent state a step goes on, whatever the host presents next. Only a command could stop, and of the commands
CTRR alone, in states the invariant excludes. -/
theorem step_goes_on {s : State} (hs : CursorCoherent s) : ∃ t, step s = .next t := by
  match hin : s.inputs with
  | [] => exact ⟨_, step_of_idle hin⟩
  | .reset :: _ => exact ⟨_, step_of_reset hin⟩
  | .command _ :: _ =>
    obtain ⟨t, _, hstep, -⟩ := step_of_command hs hin
    exact ⟨t, hstep⟩

/-- An invariant under which every step goes on, and which every step keeps, lets every run go on and holds at its end. -/
theorem runFor_of_invariant {P : State → Prop} (goes_on : ∀ {s}, P s → ∃ t, step s = .next t)
    (keeps : ∀ {s t}, P s → step s = .next t → P t) (n : Nat) {s : State} (hs : P s) :
    ∃ t, runFor n s = .next t ∧ P t := by
  induction n generalizing s with
  | zero => exact ⟨s, runFor_zero s, hs⟩
  | succ n ih =>
    obtain ⟨u, hu⟩ := goes_on hs
    rw [runFor_succ_of_step hu]
    exact ih (keeps hs hu)

/-- Settles O35: coherence is an invariant under which every step goes on. -/
theorem coherentStatesAreSafe : Obligations.CoherentStatesAreSafe := by
  intro s hs n
  have keeps : ∀ {s t : State}, CursorCoherent s → step s = .next t → CursorCoherent t :=
    stepKeepsCursorCoherent _ _
  obtain ⟨t, hrun, -⟩ := runFor_of_invariant step_goes_on keeps n hs
  exact ⟨t, hrun⟩

end Sys2Proof.Laws
end
